-- ==== Sys2Proof/Word.lean ====
section
/-! DEFINITION. The words that cross the block's boundary: the light pattern, the sensor reading, the control
vector and, for a serialised table image only, the byte. Bit 0 is the least significant bit and nothing is signed
(00_scope.md R10). State identifiers, durations and table words have parameter widths and are natural numbers with
their bounds said where they hold (log 13). -/

namespace Sys2Proof

/-- A byte of a serialised table image (20_memory.md R44); inside the block there are no bytes. -/
abbrev Byte := BitVec 8

/-- A light pattern, `OUT_W` = 6 bits (00_scope.md R7, 30_encoding.md R72). -/
abbrev Pattern := BitVec 6

/-- A sensor reading, `SENS_W` = 2 bits: bit 1 north, bit 0 east (30_encoding.md R76). -/
abbrev Reading := BitVec 2

/-- The control vector `{rst, expired, tick}` (30_encoding.md R78). -/
abbrev CtrlWord := BitVec 3

/-- The two roads of the intersection (00_scope.md R1). -/
inductive Road
  | north
  | east
deriving DecidableEq, Repr, Inhabited

/-- The three colours of a road's lights (30_encoding.md R72). -/
inductive Colour
  | red
  | yellow
  | green
deriving DecidableEq, Repr, Inhabited

/-- The two ports that can fail in a hosted build (60_exceptions.md R206). -/
inductive Port
  | light
  | sensor
deriving DecidableEq, Repr, Inhabited

end Sys2Proof
end

