-- ==== Sys2Proof/Config.lean ====
section
/-! DEFINITION. The parameters that are fixed before the block exists (00_scope.md R7, 10_state.md R27, R28) and the
values the spec leaves to the environment. The configuration itself, these parameters with a validated table, is
`Config` in Machine/Table.lean. -/

namespace Sys2Proof

/-- `BOTH_POLICY`: what a go state does at reading 3 (00_scope.md R8, 40_transition_table.md R107). -/
inductive BothPolicy
  | hold
  | yield
deriving DecidableEq, Repr, Inhabited

/-- The two widths an encoded record depends on: `STATE_W` and `DUR_W` (00_scope.md R7). -/
structure Widths where
  stateW : Nat
  durW   : Nat
deriving DecidableEq, Repr

/-- The parameters of the reference design that are no width (00_scope.md R7): `BOTH_POLICY`, `DUR_GO`, `DUR_WAIT`,
which are durations of its `DUR_W` = 16 bits, and `TICK_PERIOD` in microseconds. -/
structure RefParams where
  bothPolicy   : BothPolicy
  durGo        : BitVec 16
  durWait      : BitVec 16
  tickPeriodUs : Nat
deriving DecidableEq, Repr

/-- The numeric parameters of the block (00_scope.md R7): `NSTATES`, `DUR_W`, `START`, and the platform's `TICK_PERIOD` in
microseconds, on which no rule depends (93_implementation_defined.md U10, log 17). `STATE_W` and `REC_W` are functions
of these. -/
structure Params where
  nstates      : Nat
  durW         : Nat
  start        : Nat
  tickPeriodUs : Nat
deriving DecidableEq, Repr

/-- What the environment presents in one clock cycle (10_state.md R28 (c), R29): `rst`, `tick` and `sensor`. At the
step level only `sensor` is read; `portFault` is the failure a hosted build injects into this step, if any
(60_exceptions.md R206), and nothing else reads it. -/
structure Inputs where
  rst       : Bool
  tick      : Bool
  sensor    : Reading
  portFault : Option Port
deriving DecidableEq, Repr, Inhabited

/-- The inputs of cycle `n` where the host has queued none: FREE VALUES (00_scope.md R6: "free values each clock
cycle"). No body: nothing can be proved of them (log 2). -/
opaque Config.freeInputs : Nat → Inputs

/-- `F_CLK`, OPEN: a platform figure that no rule depends on (00_scope.md R7, log 17). -/
opaque Config.fClk : Nat

end Sys2Proof
end

