-- ==== Sys2Proof/Syntax.lean ====
section
/-! DEFINITION. Table records and the instructions: one constructor of `Instr` per row of spec/opcode_table.json
(30_encoding.md R86). -/

namespace Sys2Proof

/-- A table record: the triple `(out, dur, next)` with one next-state entry per reading (00_scope.md R12,
30_encoding.md R71). -/
structure Record where
  out   : Pattern
  dur   : Nat
  next3 : Nat
  next2 : Nat
  next1 : Nat
  next0 : Nat
deriving DecidableEq, Repr

/-- A raw record, the form `validate` is defined on (42_step_semantics.md R177): the list of next entries may be short
and its numbers out of range. -/
structure RawRecord where
  out  : Pattern
  dur  : Nat
  next : List Nat
deriving DecidableEq, Repr

/-- The instructions, one constructor per row of spec/opcode_table.json. -/
inductive Instr
  /-- RESET, CTRL `1xx` (41_engine_operations.md R137). -/
  | reset
  /-- ADVANCE, CTRL `01x` (R138). -/
  | advance
  /-- COUNT, CTRL `001` (R139). -/
  | count
  /-- IDLE, CTRL `000` (R140). -/
  | idle
  /-- STATE, the generic record (40_transition_table.md R100), fields in the order of format REC. -/
  | state (out : Pattern) (dur next3 next2 next1 next0 : Nat)
  /-- goN, the `HOLD` image (R103). -/
  | goN
  /-- goN.YIELD (R103). -/
  | goNYield
  /-- waitN (R104). -/
  | waitN
  /-- goE, the `HOLD` image (R105). -/
  | goE
  /-- goE.YIELD (R105). -/
  | goEYield
  /-- waitE (R106). -/
  | waitE
deriving DecidableEq, Repr

end Sys2Proof
end

