-- ==== Sys2Proof/Decode.lean ====
section
/-! DEFINITION. The two encodings of 30_encoding.md: format REC (R71, R80) and format CTRL (R78); the decoder, total on
any bytes and rejecting by name; then the encoder, written from the same tables. -/

namespace Sys2Proof

/-! ### Widths (00_scope.md R7) -/

/-- The least `j ≥ k` with `n ≤ 2^j`, looking at `fuel` candidates. -/
def ceilLog2From : Nat → Nat → Nat → Nat
  | 0, _, k => k
  | fuel + 1, n, k => if n ≤ 2 ^ k then k else ceilLog2From fuel n (k + 1)

/-- `ceil(log2(n))`. -/
def ceilLog2 (n : Nat) : Nat := ceilLog2From n n 0

/-- `STATE_W = max(1, ceil(log2(NSTATES)))`. -/
def stateW (nstates : Nat) : Nat := max 1 (ceilLog2 nstates)

/-- `REC_W = OUT_W + DUR_W + NREAD * STATE_W`. -/
def recW (wd : Widths) : Nat := 6 + wd.durW + 4 * wd.stateW

/-- The number of bytes of a record in a serialised image, `ceil(REC_W / 8)` (20_memory.md R44). -/
def recBytes (wd : Widths) : Nat := (recW wd + 7) / 8

/-- The widths of the reference design: `STATE_W` 2, `DUR_W` 16. -/
def refWidths : Widths := ⟨2, 16⟩

/-- The widths of a block with these parameters. -/
def Params.widths (p : Params) : Widths := ⟨stateW p.nstates, p.durW⟩

/-! ### Bit slices (00_scope.md R10) -/

/-- `w[lo + len - 1 : lo]` as an unsigned number. -/
def slice (w lo len : Nat) : Nat := w / 2 ^ lo % 2 ^ len

/-- `{a, b}` with `b` of width `len`. -/
def cat (a b len : Nat) : Nat := a * 2 ^ len + b

/-! ### Format REC: the fields of a record (30_encoding.md R71, R80) -/

/-- Decoding a record: `out = w[REC_W-1 : 4*STATE_W+DUR_W]`, `dur = w[4*STATE_W+DUR_W-1 : 4*STATE_W]`,
`next[r] = w[(r+1)*STATE_W-1 : r*STATE_W]`. -/
def decodeRecord (wd : Widths) (w : Nat) : Record where
  out   := BitVec.ofNat 6 (slice w (4 * wd.stateW + wd.durW) 6)
  dur   := slice w (4 * wd.stateW) wd.durW
  next3 := slice w (3 * wd.stateW) wd.stateW
  next2 := slice w (2 * wd.stateW) wd.stateW
  next1 := slice w wd.stateW wd.stateW
  next0 := slice w 0 wd.stateW

/-- Encoding a record: `{out, dur, next[3], next[2], next[1], next[0]}`, most significant field first. -/
def encodeRecord (wd : Widths) (r : Record) : Nat :=
  cat (cat (cat (cat (cat r.out.toNat r.dur wd.durW) r.next3 wd.stateW) r.next2 wd.stateW) r.next1 wd.stateW)
    r.next0 wd.stateW

/-! ### The records of the reference table (40_transition_table.md R103 to R106) -/

/-- `goN` (R103): east red, north green; leaves at reading 1, and at reading 3 under `YIELD`. -/
def goNRecord (p : BothPolicy) (durGo : Nat) : Record where
  out   := 0b100001
  dur   := durGo
  next3 := match p with | .hold => 0 | .yield => 1
  next2 := 0
  next1 := 1
  next0 := 0

/-- `waitN` (R104): east red, north yellow; always goes to `goE`. -/
def waitNRecord (durWait : Nat) : Record where
  out   := 0b100010
  dur   := durWait
  next3 := 2
  next2 := 2
  next1 := 2
  next0 := 2

/-- `goE` (R105): east green, north red; leaves at reading 2, and at reading 3 under `YIELD`. -/
def goERecord (p : BothPolicy) (durGo : Nat) : Record where
  out   := 0b001100
  dur   := durGo
  next3 := match p with | .hold => 2 | .yield => 3
  next2 := 3
  next1 := 2
  next0 := 2

/-- `waitE` (R106): east yellow, north red; always goes to `goN`. -/
def waitERecord (durWait : Nat) : Record where
  out   := 0b010100
  dur   := durWait
  next3 := 0
  next2 := 0
  next1 := 0
  next0 := 0

/-- The record a REC row of the opcode table stands for; the CTRL rows have none. -/
def instrRecord : Instr → Option Record
  | .reset => none
  | .advance => none
  | .count => none
  | .idle => none
  | .state out dur n3 n2 n1 n0 => some ⟨out, dur, n3, n2, n1, n0⟩
  | .goN => some (goNRecord .hold 3000)
  | .goNYield => some (goNRecord .yield 3000)
  | .waitN => some (waitNRecord 500)
  | .goE => some (goERecord .hold 3000)
  | .goEYield => some (goERecord .yield 3000)
  | .waitE => some (waitERecord 500)

/-! ### Instruction words -/

/-- The row of a reference image, by its full 30-bit match (30_encoding.md R79, R86). -/
def imageRow (w : Nat) : Option Instr :=
  if w = 0x210BB804 then some .goN
  else if w = 0x210BB844 then some .goNYield
  else if w = 0x2201F4AA then some .waitN
  else if w = 0x0C0BB8BA then some .goE
  else if w = 0x0C0BB8FA then some .goEYield
  else if w = 0x1401F400 then some .waitE
  else none

/-- The generic row STATE over a record. -/
def genericRow (r : Record) : Instr := .state r.out r.dur r.next3 r.next2 r.next1 r.next0

/-- The instruction of a REC word: the row of a reference image where the word is one (at the reference widths, which
are those of the rows), else the generic row (log 12). The fields are those of R80 either way. -/
def decodeRec (wd : Widths) (w : Nat) : Instr :=
  match (if wd = refWidths then imageRow w else none) with
  | some i => i
  | none => genericRow (decodeRecord wd w)

/-- The operation a control vector selects (30_encoding.md R78, 41_engine_operations.md R136): `rst` over `expired`
over `tick`. -/
def decodeCtrl (c : CtrlWord) : Instr :=
  if c.getLsbD 2 then .reset
  else if c.getLsbD 1 then .advance
  else if c.getLsbD 0 then .count
  else .idle

/-- Why bytes are no instruction. -/
inductive DecodeError
  /-- Neither the one byte of a control vector nor the `ceil(REC_W/8)` bytes of a record image. -/
  | badLength (n : Nat)
  /-- A byte given for a control vector has a bit above bit 2 (log 11). -/
  | ctrlHighBits
  /-- A record image has a bit at or above `REC_W`, which 20_memory.md R44 stores as zero (log 11). -/
  | recordHighBits
deriving DecidableEq, Repr

/-- The number whose bytes these are, least significant byte first (20_memory.md R44). -/
def leNat : List Byte → Nat
  | [] => 0
  | b :: bs => b.toNat + 256 * leNat bs

/-- The `n` low bytes of a number, least significant byte first (20_memory.md R44). -/
def leBytes : Nat → Nat → List Byte
  | 0, _ => []
  | n + 1, w => BitVec.ofNat 8 w :: leBytes n (w / 256)

/-- The decoder: one byte holds a control vector in its bits 2 to 0, `ceil(REC_W/8)` bytes hold a record image; nothing
else is an instruction. (A record image never has one byte: `REC_W ≥ 10` since `STATE_W ≥ 1`.) -/
def decodeBytes (wd : Widths) (bs : List Byte) : Except DecodeError Instr :=
  if bs.length = 1 then
    if leNat bs < 8 then .ok (decodeCtrl (BitVec.ofNat 3 (leNat bs))) else .error .ctrlHighBits
  else if bs.length = recBytes wd then
    if leNat bs < 2 ^ recW wd then .ok (decodeRec wd (leNat bs)) else .error .recordHighBits
  else .error (.badLength bs.length)

/-- The instruction of the word `w` of an opcode-table row that has `nbits` bits in whole bytes: laid out least
significant byte first and given to the decoder, at the widths of the table's rows. -/
def decodeTableWord (nbits w : Nat) : Option Instr :=
  match decodeBytes refWidths (leBytes ((nbits + 7) / 8) w) with
  | .ok i => some i
  | .error _ => none

/-! ### The encoder -/

/-- The control vector of a CTRL row: its match, the bits it does not examine zero (30_encoding.md R78). -/
def ctrlMatch : Instr → Option CtrlWord
  | .reset => some 0b100
  | .advance => some 0b010
  | .count => some 0b001
  | .idle => some 0b000
  | .state _ _ _ _ _ _ => none
  | .goN => none
  | .goNYield => none
  | .waitN => none
  | .goE => none
  | .goEYield => none
  | .waitE => none

/-- The bytes of an instruction: a control vector in one byte, a record image in `ceil(REC_W/8)` bytes. -/
def encode (wd : Widths) (i : Instr) : List Byte :=
  match ctrlMatch i, instrRecord i with
  | some c, _ => leBytes 1 c.toNat
  | none, some r => leBytes (recBytes wd) (encodeRecord wd r)
  | none, none => []

/-- The instruction itself, but for a generic record whose word is a reference image: that word's row (log 12). -/
def canonical (wd : Widths) (i : Instr) : Instr :=
  match i with
  | .state out dur n3 n2 n1 n0 => decodeRec wd (encodeRecord wd ⟨out, dur, n3, n2, n1, n0⟩)
  | i => i

end Sys2Proof
end

