-- ==== Sys2Proof/Machine/Lights.lean ====
section
/-! DEFINITION. The layout of the light pattern, in one definition (30_encoding.md R72), and what a pattern lights. -/

namespace Sys2Proof.Machine

/-- The bit of `out` that a road's light of a colour occupies (30_encoding.md R72): from bit 5 down, east red, east
yellow, east green, north red, north yellow, north green. -/
def lightBit : Road → Colour → Nat
  | .east, .red => 5
  | .east, .yellow => 4
  | .east, .green => 3
  | .north, .red => 2
  | .north, .yellow => 1
  | .north, .green => 0

/-- A 1 in a bit means the light is lit (30_encoding.md R73). -/
def lit (p : Pattern) (road : Road) (colour : Colour) : Bool := p.getLsbD (lightBit road colour)

/-- How many of a road's three lights a pattern lights: `popcount(out[5:3])` for east, `popcount(out[2:0])` for north
(30_encoding.md R81). -/
def litCount (p : Pattern) (road : Road) : Nat :=
  (lit p road .red).toNat + (lit p road .yellow).toNat + (lit p road .green).toNat

/-- A pattern is legal if it lights at most one light per road (30_encoding.md R81 (a), 90_conflicts.md C1). -/
def patternLegal (p : Pattern) : Bool := decide (litCount p .north ≤ 1) && decide (litCount p .east ≤ 1)

end Sys2Proof.Machine
end

