-- ==== Sys2Proof/WellFormed.lean ====
section
/-! DEFINITION. When an instruction is well formed: its fields fit the widths (30_encoding.md R80), and its record is
legal for a table of `nstates` states (R81). The CTRL rows have no operand and are always well formed. -/

namespace Sys2Proof

/-- The fields of a record fit their widths: every such triple encodes to one word (30_encoding.md R80). -/
def Record.fits (wd : Widths) (r : Record) : Bool :=
  decide (r.dur < 2 ^ wd.durW) && decide (r.next3 < 2 ^ wd.stateW) && decide (r.next2 < 2 ^ wd.stateW)
    && decide (r.next1 < 2 ^ wd.stateW) && decide (r.next0 < 2 ^ wd.stateW)

/-- Every next field names a state of the table (30_encoding.md R81 (c)). -/
def Record.targetsIn (nstates : Nat) (r : Record) : Bool :=
  decide (r.next3 < nstates) && decide (r.next2 < nstates) && decide (r.next1 < nstates) && decide (r.next0 < nstates)

/-- An instruction whose operands fit the encoding. A reference image has the widths of the reference design. -/
def Instr.fits (wd : Widths) : Instr → Bool
  | .reset => true
  | .advance => true
  | .count => true
  | .idle => true
  | .state out dur n3 n2 n1 n0 => (Record.mk out dur n3 n2 n1 n0).fits wd
  | .goN => decide (wd = refWidths)
  | .goNYield => decide (wd = refWidths)
  | .waitN => decide (wd = refWidths)
  | .goE => decide (wd = refWidths)
  | .goEYield => decide (wd = refWidths)
  | .waitE => decide (wd = refWidths)

/-- A record instruction is legal in a table of `nstates` states (30_encoding.md R81 (a), (c)). -/
def Instr.legal (nstates : Nat) (i : Instr) : Bool :=
  match instrRecord i with
  | some r => Machine.patternLegal r.out && r.targetsIn nstates
  | none => true

/-- Well formed for a table of `nstates` states and durations of `durW` bits: the operands fit and the record is
legal. -/
def Instr.wellFormed (nstates durW : Nat) (i : Instr) : Bool :=
  i.fits ⟨stateW nstates, durW⟩ && i.legal nstates

end Sys2Proof
end

