-- ==== Sys2Proof/Machine/Validate.lean ====
section
/-! DEFINITION. Table validation on raw records (42_step_semantics.md R177; 60_exceptions.md R201 to R203). Construction is
in Table.lean. -/

namespace Sys2Proof.Machine

/-- The table validation errors with the values each records (60_exceptions.md R202). -/
inductive TableError
  /-- V2a: record `s` has no next entry for reading `r`. -/
  | missingTransition (s r : Nat)
  /-- V3: the pattern of record `s` lights more than one light of a road. -/
  | outputConflict (s : Nat) (road : Road)
  /-- V2b: the next entry `target` of record `s` for reading `r` is at or above `NSTATES`. -/
  | badTarget (s r target : Nat)
  /-- V4: `START` is at or above `NSTATES`. -/
  | badStart (start : Nat)
  /-- V1: `NSTATES < 1`, or the table does not have `NSTATES` records. -/
  | badTableSize (records nstates : Nat)
  /-- V5: the duration of record `s` does not fit `DUR_W` bits. -/
  | durationRange (s dur : Nat)
deriving DecidableEq, Repr

/-- The codes of the table of R202. -/
def errorCode : TableError → Nat
  | .missingTransition _ _ => 1
  | .outputConflict _ _ => 2
  | .badTarget _ _ _ => 3
  | .badStart _ => 4
  | .badTableSize _ _ => 5
  | .durationRange _ _ => 6

/-- V2a for one reading. -/
def missingAt (s : Nat) (r : RawRecord) (k : Nat) : Option TableError :=
  match r.next[k]? with
  | none => some (.missingTransition s k)
  | some _ => none

/-- V2b for one reading; a missing entry is V2a's. -/
def badTargetAt (nstates s : Nat) (r : RawRecord) (k : Nat) : Option TableError :=
  match r.next[k]? with
  | none => none
  | some t => if t ≥ nstates then some (.badTarget s k t) else none

/-- V3 for one road. -/
def conflictOn (s : Nat) (r : RawRecord) (road : Road) : Option TableError :=
  if litCount r.out road > 1 then some (.outputConflict s road) else none

/-- V5. -/
def durationError (durW s : Nat) (r : RawRecord) : Option TableError :=
  if r.dur ≥ 2 ^ durW then some (.durationRange s r.dur) else none

/-- The first of a list of checks that reports an error. -/
def firstError : List (Option TableError) → Option TableError
  | [] => none
  | some e :: _ => some e
  | none :: rest => firstError rest

/-- The checks of record `s` in the order of R177, R203: V2a for readings 0 to 3, V2b for readings 0 to 3, V3 north, V3
east, V5. -/
def recordChecks (nstates durW s : Nat) (r : RawRecord) : List (Option TableError) :=
  [missingAt s r 0, missingAt s r 1, missingAt s r 2, missingAt s r 3,
   badTargetAt nstates s r 0, badTargetAt nstates s r 1, badTargetAt nstates s r 2, badTargetAt nstates s r 3,
   conflictOn s r .north, conflictOn s r .east, durationError durW s r]

/-- The first error of record `s`. -/
def recordError (nstates durW s : Nat) (r : RawRecord) : Option TableError :=
  firstError (recordChecks nstates durW s r)

/-- The first error of the records, the first of which has index `s`, in ascending index order. -/
def recordsError (nstates durW : Nat) : Nat → List RawRecord → Option TableError
  | _, [] => none
  | s, r :: rest =>
    match recordError nstates durW s r with
    | some e => some e
    | none => recordsError nstates durW (s + 1) rest

/-- `validate` (42_step_semantics.md R177): `none` is the spec's `ok`, else the first error: V1, V4, then the records. -/
def validate (nstates durW start : Nat) (raw : List RawRecord) : Option TableError :=
  if nstates < 1 ∨ raw.length ≠ nstates then some (.badTableSize raw.length nstates)
  else if start ≥ nstates then some (.badStart start)
  else recordsError nstates durW 0 raw

/-- A record as a raw record, with all four entries. -/
def rawOf (r : Record) : RawRecord := ⟨r.out, r.dur, [r.next0, r.next1, r.next2, r.next3]⟩

/-- A raw record as a record; `validate` admits none with a missing entry, so the 0 is never read of one. -/
def recordOf (r : RawRecord) : Record :=
  ⟨r.out, r.dur, r.next.getD 3 0, r.next.getD 2 0, r.next.getD 1 0, r.next.getD 0 0⟩

/-- A record whose targets are in range, that lights at most one light per road and whose duration fits passes its
checks. -/
theorem recordError_of_legal {n w s : Nat} {rec : Record} (ht : rec.targetsIn n = true)
    (hp : patternLegal rec.out = true) (hd : rec.dur < 2 ^ w) : recordError n w s (rawOf rec) = none := by
  simp only [Record.targetsIn, patternLegal, Bool.and_eq_true, decide_eq_true_eq] at ht hp
  obtain ⟨⟨⟨h3, h2⟩, h1⟩, h0⟩ := ht
  simp [recordError, recordChecks, firstError, missingAt, badTargetAt, conflictOn, durationError, rawOf, Nat.not_le.2 h3,
    Nat.not_le.2 h2, Nat.not_le.2 h1, Nat.not_le.2 h0, Nat.not_lt.2 hp.1, Nat.not_lt.2 hp.2, Nat.not_le.2 hd]

/-- The record made of a raw record that passes its checks passes the same checks. -/
theorem recordError_rawOf_recordOf {n w s : Nat} {r : RawRecord} (h : recordError n w s r = none) :
    recordError n w s (rawOf (recordOf r)) = none := by
  obtain ⟨out, dur, next⟩ := r
  match next with
  | [] => simp [recordError, recordChecks, missingAt, firstError] at h
  | [_] => simp [recordError, recordChecks, missingAt, firstError] at h
  | [_, _] => simp [recordError, recordChecks, missingAt, firstError] at h
  | [_, _, _] => simp [recordError, recordChecks, missingAt, firstError] at h
  | _ :: _ :: _ :: _ :: _ => exact h

theorem recordsError_rawOf_recordOf {n w : Nat} {raw : List RawRecord} : ∀ {s : Nat}, recordsError n w s raw = none →
    recordsError n w s ((raw.map recordOf).map rawOf) = none := by
  induction raw with
  | nil => exact fun h => h
  | cons r rest ih =>
    intro s h
    cases hr : recordError n w s r with
    | some e => simp [recordsError, hr] at h
    | none =>
      simp only [recordsError, hr] at h
      simp only [List.map_cons, recordsError, recordError_rawOf_recordOf hr]
      exact ih h

/-- The records made of a raw table that `validate` accepts are accepted (42_step_semantics.md R178). -/
theorem validate_rawOf_recordOf {n w st : Nat} {raw : List RawRecord} (h : validate n w st raw = none) :
    validate n w st ((raw.map recordOf).map rawOf) = none := by
  unfold validate at h ⊢
  simp only [List.length_map]
  split at h
  · cases h
  · rename_i h1
    rw [if_neg h1]
    split at h
    · cases h
    · rename_i h2
      rw [if_neg h2]
      exact recordsError_rawOf_recordOf h

end Sys2Proof.Machine
end

