-- ==== Sys2Proof/Machine/Table.lean ====
section
/-! DEFINITION. The configuration of a block and its construction (42_step_semantics.md R178), the transition table as the
block's one memory (20_memory.md R40 to R45), its serialised image, and the reference table (40_transition_table.md
R108). -/

namespace Sys2Proof

/-- The configuration of a block: its parameters and its transition table `TBL`, location `i` at index `i` (20_memory.md
R41), with the proof that `validate` accepts it (42_step_semantics.md R178). Only validated tables are admitted
(60_exceptions.md R205), so nothing that takes a configuration is ever asked about an invalid one (log 8, log 21). -/
structure Config extends Params where
  tbl   : List Record
  valid : Machine.validate nstates durW start (tbl.map Machine.rawOf) = none
deriving DecidableEq, Repr

end Sys2Proof

namespace Sys2Proof.Machine

/-! ### Construction -/

/-- The result of construction. -/
inductive Built
  /-- An engine's configuration. -/
  | ok (c : Config)
  /-- No engine: the validation error. -/
  | error (e : TableError)
deriving DecidableEq, Repr

/-- Construction (42_step_semantics.md R178, 60_exceptions.md R204, R205): a configuration only for a table that
`validate` accepts, else the error and no block. -/
def construct (p : Params) (raw : List RawRecord) : Built :=
  match h : validate p.nstates p.durW p.start raw with
  | some e => .error e
  | none => .ok ⟨p, raw.map recordOf, validate_rawOf_recordOf h⟩

/-- The block built with another record at a location: the same block where that table is refused, since then no other
one exists. -/
def withRecord (i : Nat) (rec : Record) (c : Config) : Config :=
  if h : validate c.nstates c.durW c.start ((c.tbl.set i rec).map rawOf) = none then
    { c with tbl := c.tbl.set i rec, valid := h }
  else c

/-! ### The table memory -/

/-- The read primitive `TBL[i]` (20_memory.md R42): the whole record, or nothing where the read is undefined, which is at
and above `NSTATES`, the number of the table's locations. -/
def readRecord (c : Config) (i : Nat) : Option Record := c.tbl[i]?

/-- The word of `REC_W` bits that stands at a location (20_memory.md R40 (a), 30_encoding.md R71). -/
def readWord (c : Config) (i : Nat) : Option Nat := (readRecord c i).map (encodeRecord c.widths)

/-- The words of the table in location order. -/
def tableWords (c : Config) : List Nat := c.tbl.map (encodeRecord c.widths)

/-- The canonical form of the table memory: exactly `NSTATES` locations, each a record whose fields fit the word of
`REC_W` bits (20_memory.md R41), so that equal tables are equal lists. Every configuration has it (log 21). -/
def tableWf (c : Config) : Bool := decide (c.tbl.length = c.nstates) && c.tbl.all fun rec => rec.fits c.widths

/-- The serialised image: each record in `ceil(REC_W/8)` bytes, least significant byte first, ascending locations
(20_memory.md R44). -/
def imageBytes (c : Config) : List Byte := (tableWords c).flatMap (leBytes (recBytes c.widths))

/-- The words of `n` records of `k` bytes each read back from an image. -/
def imageWords (k : Nat) : Nat → List Byte → List Nat
  | 0, _ => []
  | n + 1, bs => leNat (bs.take k) :: imageWords k n (bs.drop k)

/-! ### The reference design -/

/-- The records of the reference table (40_transition_table.md R108): locations 0 to 3 hold goN, waitN, goE, waitE. -/
def refRecords (p : RefParams) : List Record :=
  [goNRecord p.bothPolicy p.durGo.toNat, waitNRecord p.durWait.toNat, goERecord p.bothPolicy p.durGo.toNat,
   waitERecord p.durWait.toNat]

/-- The reference table as a raw table. -/
def refTable (p : RefParams) : List RawRecord := (refRecords p).map rawOf

/-- The numeric parameters of the reference design (00_scope.md R7): `NSTATES` 4, `DUR_W` 16, `START` goN. -/
def refNumbers (p : RefParams) : Params := ⟨4, 16, 0, p.tickPeriodUs⟩

/-- The reference table passes `validate` for both policies (42_step_semantics.md R177). -/
theorem validate_refTable (p : RefParams) : validate 4 16 0 (refTable p) = none := by
  obtain ⟨pol, g, w, t⟩ := p
  have h0 : recordError 4 16 0 (rawOf (goNRecord pol g.toNat)) = none :=
    recordError_of_legal (by cases pol <;> rfl) (show patternLegal 0b100001 = true by decide) g.isLt
  have h1 : recordError 4 16 1 (rawOf (waitNRecord w.toNat)) = none :=
    recordError_of_legal rfl (show patternLegal 0b100010 = true by decide) w.isLt
  have h2 : recordError 4 16 2 (rawOf (goERecord pol g.toNat)) = none :=
    recordError_of_legal (by cases pol <;> rfl) (show patternLegal 0b001100 = true by decide) g.isLt
  have h3 : recordError 4 16 3 (rawOf (waitERecord w.toNat)) = none :=
    recordError_of_legal rfl (show patternLegal 0b010100 = true by decide) w.isLt
  simp [validate, refTable, refRecords, recordsError, h0, h1, h2, h3]

/-- The configuration of the reference design. -/
def refConfig (p : RefParams) : Config where
  toParams := refNumbers p
  tbl := refRecords p
  valid := validate_refTable p

/-- The reference values of those parameters (00_scope.md R7): `HOLD`, 3000, 500 and 10 ms. -/
def refParams : RefParams := ⟨.hold, 3000, 500, 10000⟩

/-- The real time in microseconds of a number of time units (70_reset_and_hazards.md R247); no rule of the machine
depends on it (log 17). -/
def unitsUs (p : Params) (n : Nat) : Nat := n * p.tickPeriodUs

end Sys2Proof.Machine
end

