-- ==== Sys2Proof/Machine/State.lean ====
section
/-! DEFINITION. The machine's state as plain data, the reasons a step can stop, and the state after reset. -/

namespace Sys2Proof.Machine

/-- Which form of the engine runs (00_scope.md R9). A step never changes it (log 5). -/
inductive Build
  /-- The hardware block: one step is one clock cycle (41_engine_operations.md). -/
  | block
  /-- The embedded control loop: one step is one iteration, and no port can fail (42_step_semantics.md R170). -/
  | loop
  /-- The hosted control loop with fault injection (60_exceptions.md R206). -/
  | hosted
deriving DecidableEq, Repr

/-- The step-level events (42_step_semantics.md R175). -/
inductive Event
  | lightWrite (p : Pattern)
  | wait (d : Nat)
  | sensorRead (r : Reading)
deriving DecidableEq, Repr

/-- The machine. `S` and `CNT` are its whole architectural state (10_state.md R20). The other fields are what the spec
keeps outside the state and a step needs as data: the validated configuration the block was built with (log 3), the form that
runs (log 5), the queued inputs and the counter that selects the free ones (log 1, log 2), and the step-level trace
(log 14). -/
structure State where
  cfg   : Config
  build : Build
  S     : Nat
  CNT   : Nat
  ins   : List Inputs
  now   : Nat
  trace : List Event
deriving DecidableEq, Repr

/-- Why the machine stops with a fault. -/
inductive Fault
  /-- `PortFailure(step, port)`: raised by a record's step in a hosted build whose environment injects the failure
  (60_exceptions.md R206, 93_implementation_defined.md U11); the spec's own behaviour. `step` is the index of the step
  since the engine was built. Safe: the caller still holds the state the step began in (log 7). -/
  | portFailure (step : Nat) (port : Port)
deriving DecidableEq, Repr

/-- Why the machine refuses. -/
inductive Refusal
  /-- Raised by exec's arm of an instruction without a meaning; no arm does. Safe. -/
  | notModelled (mnemonic : String)
  /-- Raised by a table read at or above `NSTATES`, which is undefined and must be refused (20_memory.md R42,
  93_implementation_defined.md U5). Safe; no run of a valid table reaches it (10_state.md R34). -/
  | undefinedTableRead (index : Nat)
deriving DecidableEq, Repr

/-- The machine right after a RESET, for any configuration, form and queued inputs (70_reset_and_hazards.md R231):
`S = START`, `CNT = 0`. There is no state before the first RESET (R232). -/
def State.start (c : Config) (b : Build) (ins : List Inputs) : State := ⟨c, b, c.start, 0, ins, 0, []⟩

/-- The reference block right after reset, nothing queued (10_state.md R33; log 4, log 5). -/
def State.reset : State := State.start (refConfig refParams) .block []

end Sys2Proof.Machine
end

