-- ==== Sys2Proof/Machine/Operands.lean ====
section
/-! DEFINITION. The operand forms: the inputs of the current cycle, the sensor reading, the record at `S` and the
next-state lookup. -/

namespace Sys2Proof.Machine

/-- The inputs of the current cycle: the first queued entry, else free values (10_state.md R28 (c), log 1, log 2). -/
def inputs (s : State) : Inputs :=
  match s.ins with
  | i :: _ => i
  | [] => Config.freeInputs s.now

/-- The reading assembled from the two detectors, `{north, east} = 2 * north + east` (30_encoding.md R75, R76). -/
def readingOf (north east : Bool) : Reading := BitVec.ofBool north ++ BitVec.ofBool east

/-- A car is present at the north approach: bit 1 of the reading (30_encoding.md R76). -/
def northCar (r : Reading) : Bool := r.getLsbD 1

/-- A car is present at the east approach: bit 0 of the reading (30_encoding.md R76). -/
def eastCar (r : Reading) : Bool := r.getLsbD 0

/-- `rec.next[r]`, the reading used as an unsigned index (30_encoding.md R75, 41_engine_operations.md R133). -/
def nextOf (rec : Record) (r : Reading) : Nat :=
  match r.toNat with
  | 0 => rec.next0
  | 1 => rec.next1
  | 2 => rec.next2
  | _ => rec.next3

/-- The record of the current state, `rec = TBL[S]` (41_engine_operations.md R131). -/
def current (s : State) : Option Record := readRecord s.cfg s.S

/-- `nxt = rec.next[sensor]`, computed in every cycle (41_engine_operations.md R133). -/
def nxt (s : State) : Option Nat := (current s).map fun rec => nextOf rec (inputs s).sensor

end Sys2Proof.Machine
end

