-- ==== Sys2Proof/Machine/Flags.lean ====
section
/-! DEFINITION. The block stores no flag (10_state.md R26). Its one condition is `expired`, recomputed in every cycle by
the timer-comparison unit; with it the control vector and the two output ports. -/

namespace Sys2Proof.Machine

/-- The comparator: `CNT >= rec.dur`, unsigned (41_engine_operations.md R132). -/
def timeUp (rec : Record) (cnt : Nat) : Bool := decide (rec.dur ≤ cnt)

/-- `expired` of the current cycle; nothing where `TBL[S]` is undefined (41_engine_operations.md R132). -/
def expired (s : State) : Option Bool := (current s).map fun rec => timeUp rec s.CNT

/-- `{rst, expired, tick}` as one vector: bit 2, bit 1, bit 0 (30_encoding.md R78). -/
def ctrlOf (rst exp tick : Bool) : CtrlWord := BitVec.ofBool rst ++ (BitVec.ofBool exp ++ BitVec.ofBool tick)

/-- The control vector of the current cycle (30_encoding.md R78). Where `TBL[S]` is undefined, so is `expired`; with
`rst = 1` that bit is not examined, and RESET ignores the old state (41_engine_operations.md R137; log 9). -/
def ctrlVector (s : State) : Option CtrlWord :=
  match expired s with
  | some e => some (ctrlOf (inputs s).rst e (inputs s).tick)
  | none => if (inputs s).rst then some (ctrlOf true false (inputs s).tick) else none

/-- The `lights` port, `TBL[S].out`; no value where that is undefined (41_engine_operations.md R134, log 19). -/
def lights (s : State) : Option Pattern := (current s).map fun rec => rec.out

/-- The `sample` port, `expired` (41_engine_operations.md R135). -/
def sample (s : State) : Option Bool := expired s

end Sys2Proof.Machine
end

