-- ==== Sys2Proof/Machine/Ops.lean ====
section
/-! DEFINITION. The named operations over the registers, the ports and the trace, and the shared step of a record.
TAKING AN EXCEPTION: the block has none to take, no trap entry and no return (60_exceptions.md R207, R208, R211, R212),
so there is no such operation; the one transfer of control that is no table lookup is RESET (R211). -/

namespace Sys2Proof.Machine

/-- `S <- n; CNT <- 0`: a state is entered (41_engine_operations.md R137, R138). -/
def enter (n : Nat) (s : State) : State := { s with S := n, CNT := 0 }

/-- `CNT <- CNT + 1`, unsigned in `DUR_W` bits (41_engine_operations.md R139; log 10). -/
def countUnit (s : State) : State := { s with CNT := (s.CNT + 1) % 2 ^ s.cfg.durW }

/-- The clock edge, or the end of an iteration: the inputs of this cycle are gone (10_state.md R28 (c)). -/
def endCycle (s : State) : State := { s with ins := s.ins.tail, now := s.now + 1 }

/-- The hosted environment makes this port fail in this step (60_exceptions.md R206); in the block and in the embedded
loop no port can fail. -/
def portFails (s : State) (p : Port) : Bool := decide (s.build = .hosted) && decide ((inputs s).portFault = some p)

/-- Record a step-level event (42_step_semantics.md R175). -/
def record (e : Event) (s : State) : State := { s with trace := s.trace ++ [e] }

/-- One step of the control loop over a record (40_transition_table.md R100, 42_step_semantics.md R170): write the
lights, wait, read the sensor once, go to the selected state. Where a hosted port fails the rest of the step is not
performed and the cursor stays (60_exceptions.md R206); the failing port is the second component. Whether the failing
access itself still has an effect the spec leaves open; here it has none (DESIGN CHOICE, log 22): a failing light write
is no event and leaves the light port as it was, a failing sensor read is no event and gives no reading. A completed
step leaves `CNT` at 0, as the ADVANCE that ends it does (log 6). -/
def loopStep (rec : Record) (s : State) : State × Option Port :=
  if portFails s .light then (s, some .light)
  else
    let held := record (.wait rec.dur) (record (.lightWrite rec.out) s)
    if portFails s .sensor then (held, some .sensor)
    else (enter (nextOf rec (inputs s).sensor) (record (.sensorRead (inputs s).sensor) held), none)

/-- A record's step as an outcome: a failed hosted port is the fault `PortFailure(step, port)` (60_exceptions.md R206;
log 7). -/
def runRecord (rec : Record) (s : State) : Host.Outcome State Fault Refusal :=
  match loopStep rec s with
  | (s', none) => .next s'
  | (_, some p) => .fault (.portFailure s.now p)

/-- The software light port: the last pattern written, none before the first write (42_step_semantics.md R174, R181). -/
def lightPort (s : State) : Option Pattern :=
  s.trace.foldl (fun last e => match e with
    | .lightWrite p => some p
    | .wait _ => last
    | .sensorRead _ => last) none

/-- The time units waited so far at the step level (95_test_vectors.md P1). -/
def waited (s : State) : Nat :=
  s.trace.foldl (fun sum e => match e with
    | .lightWrite _ => sum
    | .wait d => sum + d
    | .sensorRead _ => sum) 0

/-- Apply `f` to the next state, if there is one. -/
def mapNext (f : State → State) : Host.Outcome State Fault Refusal → Host.Outcome State Fault Refusal
  | .next s => .next (f s)
  | .fault r => .fault r
  | .refused r => .refused r

end Sys2Proof.Machine
end

