-- ==== Sys2Proof/Machine/Control.lean ====
section
/-! DEFINITION. The four engine operations of a clock cycle (41_engine_operations.md R137 to R140). Each is the effect of
the operation once the control vector has selected it; the selection is in Fetch.lean (log 20). -/

namespace Sys2Proof.Machine

/-- RESET (R137): `S <- START; CNT <- 0`. -/
def execReset (s : State) : Host.Outcome State Fault Refusal := .next (enter s.cfg.start s)

/-- ADVANCE (R138): `S <- TBL[S].next[sensor]; CNT <- 0`. An undefined table read is refused (20_memory.md R42). -/
def execAdvance (s : State) : Host.Outcome State Fault Refusal :=
  match nxt s with
  | some n => .next (enter n s)
  | none => .refused (.undefinedTableRead s.S)

/-- COUNT (R139): `CNT <- CNT + 1`. -/
def execCount (s : State) : Host.Outcome State Fault Refusal := .next (countUnit s)

/-- IDLE (R140): no register is written. -/
def execIdle (s : State) : Host.Outcome State Fault Refusal := .next s

end Sys2Proof.Machine
end

