-- ==== Sys2Proof/Machine/Records.lean ====
section
/-! DEFINITION. The table records as instructions: one step of the control loop over the record
(40_transition_table.md R100, R103 to R106). -/

namespace Sys2Proof.Machine

/-- STATE (R100): a step over any record. -/
def execState (out : Pattern) (dur next3 next2 next1 next0 : Nat) (s : State) : Host.Outcome State Fault Refusal :=
  runRecord ⟨out, dur, next3, next2, next1, next0⟩ s

/-- goN under `HOLD` (R103). -/
def execGoN (s : State) : Host.Outcome State Fault Refusal := runRecord (goNRecord .hold 3000) s

/-- goN under `YIELD` (R103). -/
def execGoNYield (s : State) : Host.Outcome State Fault Refusal := runRecord (goNRecord .yield 3000) s

/-- waitN (R104). -/
def execWaitN (s : State) : Host.Outcome State Fault Refusal := runRecord (waitNRecord 500) s

/-- goE under `HOLD` (R105). -/
def execGoE (s : State) : Host.Outcome State Fault Refusal := runRecord (goERecord .hold 3000) s

/-- goE under `YIELD` (R105). -/
def execGoEYield (s : State) : Host.Outcome State Fault Refusal := runRecord (goERecord .yield 3000) s

/-- waitE (R106). -/
def execWaitE (s : State) : Host.Outcome State Fault Refusal := runRecord (waitERecord 500) s

end Sys2Proof.Machine
end

