-- ==== Sys2Proof/Machine/Dispatch.lean ====
section
/-! DEFINITION. One arm per instruction. -/

namespace Sys2Proof.Machine

def exec (i : Instr) (s : State) : Host.Outcome State Fault Refusal :=
  match i with
  | .reset => Sys2Proof.Machine.execReset s
  | .advance => Sys2Proof.Machine.execAdvance s
  | .count => Sys2Proof.Machine.execCount s
  | .idle => Sys2Proof.Machine.execIdle s
  | .state out dur next3 next2 next1 next0 => Sys2Proof.Machine.execState out dur next3 next2 next1 next0 s
  | .goN => Sys2Proof.Machine.execGoN s
  | .goNYield => Sys2Proof.Machine.execGoNYield s
  | .waitN => Sys2Proof.Machine.execWaitN s
  | .goE => Sys2Proof.Machine.execGoE s
  | .goEYield => Sys2Proof.Machine.execGoEYield s
  | .waitE => Sys2Proof.Machine.execWaitE s

end Sys2Proof.Machine
end

