-- ==== Sys2Proof/Machine/Fetch.lean ====
section
/-! DEFINITION. What a step runs: at the cycle level the operation the control vector selects (41_engine_operations.md
R136), at the step level the record at `S` (30_encoding.md R86); and how an instruction's word is placed there. -/

namespace Sys2Proof.Machine

/-- The result of a fetch. -/
inductive Fetched
  /-- The instruction this step runs. -/
  | instr (i : Instr)
  /-- There is none. -/
  | stop (r : Refusal)
deriving DecidableEq, Repr

/-- The operation of this clock cycle. -/
def fetchCtrl (s : State) : Fetched :=
  match ctrlVector s with
  | some c => .instr (decodeCtrl c)
  | none => .stop (.undefinedTableRead s.S)

/-- The record of this iteration, read from the table and decoded. -/
def fetchRecord (s : State) : Fetched :=
  match readWord s.cfg s.S with
  | some w => .instr (decodeRec (s.cfg.widths) w)
  | none => .stop (.undefinedTableRead s.S)

/-- Fetch, by the form that runs (00_scope.md R9). -/
def fetch (s : State) : Fetched :=
  match s.build with
  | .block => fetchCtrl s
  | .loop => fetchRecord s
  | .hosted => fetchRecord s

/-- The queued reading of the coming step, 0 where none is queued. -/
def queuedSensor (s : State) : Reading :=
  match s.ins with
  | i :: _ => i.sensor
  | [] => 0

/-- Make `expired` of the coming cycle 1: the hold has elapsed. -/
def placeExpired (rec : Record) (s : State) : State := { s with CNT := max s.CNT rec.dur }

/-- Make `expired` of the coming cycle 0: the hold is running; a zero duration, which leaves no such cycle
(41_engine_operations.md R144), is replaced by 1 in the record of the current state. -/
def placeRunning (rec : Record) (s : State) : State :=
  if s.CNT < rec.dur then s
  else if 0 < rec.dur then { s with CNT := 0 }
  else { s with CNT := 0, cfg := withRecord s.S { rec with dur := 1 } s.cfg }

/-- Make `c` the control vector of the coming cycle of the block: `rst` and `tick` as inputs, `expired` through `CNT`
(log 15). -/
def placeCtrl (c : CtrlWord) (s : State) : State :=
  let t : State :=
    { s with build := .block, ins := ⟨c.getLsbD 2, c.getLsbD 0, queuedSensor s, none⟩ :: s.ins.tail }
  match current t with
  | none => t
  | some rec => if c.getLsbD 1 then placeExpired rec t else placeRunning rec t

/-- Make `w` the record of the current state and run the control loop; a reading is queued if none is. A word with which
the table would be illegal is not placed: no block has it (30_encoding.md R81; log 15). -/
def placeRecord (w : Nat) (s : State) : State :=
  { s with
    build := match s.build with | .block => .loop | .loop => .loop | .hosted => .hosted
    cfg := withRecord s.S (decodeRecord s.cfg.widths w) s.cfg
    ins := match s.ins with | [] => [⟨false, false, 0, none⟩] | i :: rest => i :: rest }

end Sys2Proof.Machine
end

