-- ==== Sys2Proof/Machine/Step.lean ====
section
/-! DEFINITION. One step of the machine: one clock cycle of the block, or one iteration of the control loop. -/

namespace Sys2Proof.Machine

/-- One step: fetch, execute, and the inputs of this cycle are gone. -/
def step (s : State) : Host.Outcome State Fault Refusal :=
  match fetch s with
  | .instr i => mapNext endCycle (exec i s)
  | .stop r => .refused r

/-- The state in which the very next step runs the instruction of an opcode-table word: a control vector (a row of 3
bits, one byte) is put on the inputs and the counter, a record word (30 bits, four bytes) into the table at `S`
(log 15). -/
def State.withFetchWord (s : State) (nbits w : Nat) : State :=
  if nbits ≤ 8 then placeCtrl (BitVec.ofNat 3 w) s else placeRecord w s

end Sys2Proof.Machine
end

