-- ==== Sys2Proof/Machine/Text.lean ====
section
/-! DEFINITION. The textual notation of a table (30_encoding.md R84): one line per state,
`<name>: OUT <6 binary digits> DUR <decimal> NEXT <n0> <n1> <n2> <n3>`, and an optional line `START <name>`. There are
no pseudo-instructions (R85). Text is a list of characters; words are separated by blanks (log 18). -/

namespace Sys2Proof.Machine

/-- A word of the text. -/
abbrev Token := List Char

/-- One line. -/
inductive SourceLine
  /-- `START <name>`. -/
  | start (name : Token)
  /-- `<name>: OUT … DUR … NEXT …`. -/
  | state (name : Token) (out : Pattern) (dur : Nat) (n0 n1 n2 n3 : Token)
deriving DecidableEq, Repr

/-- Why a text is no table. -/
inductive TextError
  /-- The line has neither form. -/
  | badLine (index : Nat)
  /-- A second START line. -/
  | twoStarts
  /-- Two states of one name. -/
  | sameName (name : Token)
  /-- A next state or the start state names no state. -/
  | unknownName (name : Token)
deriving DecidableEq, Repr

/-- The words of a line. -/
def tokensFrom : Token → List Char → List Token
  | [], [] => []
  | word, [] => [word]
  | [], c :: cs => if c = ' ' then tokensFrom [] cs else tokensFrom [c] cs
  | word, c :: cs => if c = ' ' then word :: tokensFrom [] cs else tokensFrom (word ++ [c]) cs

/-- The words of a line. -/
def tokens (line : List Char) : List Token := tokensFrom [] line

/-- The value of a decimal digit. -/
def digit (c : Char) : Option Nat := if '0'.toNat ≤ c.toNat ∧ c.toNat ≤ '9'.toNat then some (c.toNat - '0'.toNat) else none

/-- The number whose digits in a base are these, most significant first. -/
def digitsValue (base : Nat) : Nat → Token → Option Nat
  | acc, [] => some acc
  | acc, c :: cs =>
    match digit c with
    | none => none
    | some d => if d < base then digitsValue base (base * acc + d) cs else none

/-- A decimal number of at least one digit. -/
def decimal (t : Token) : Option Nat := if t = [] then none else digitsValue 10 0 t

/-- A pattern of exactly six binary digits, `out[5]` first. -/
def binary6 (t : Token) : Option Pattern :=
  if t.length = 6 then (digitsValue 2 0 t).map (BitVec.ofNat 6) else none

/-- A name followed by a colon. -/
def labelOf (t : Token) : Option Token :=
  if t.getLast? = some ':' ∧ t.length ≥ 2 then some t.dropLast else none

/-- Parse one line from its words. -/
def parseLine : List Token → Option SourceLine
  | [k, n] => if k = "START".toList then some (.start n) else none
  | [l, o, p, d, v, x, n0, n1, n2, n3] =>
    if o = "OUT".toList ∧ d = "DUR".toList ∧ x = "NEXT".toList then
      match labelOf l, binary6 p, decimal v with
      | some name, some out, some dur => some (.state name out dur n0 n1 n2 n3)
      | _, _, _ => none
    else none
  | _ => none

/-- Parse the lines from index `k`; empty lines are skipped. -/
def parseLines : Nat → List (List Char) → Except TextError (List SourceLine)
  | _, [] => .ok []
  | k, line :: rest =>
    match tokens line with
    | [] => parseLines (k + 1) rest
    | ts =>
      match parseLine ts, parseLines (k + 1) rest with
      | none, _ => .error (.badLine k)
      | some _, .error e => .error e
      | some l, .ok ls => .ok (l :: ls)

/-- The state names in location order. -/
def names : List SourceLine → List Token
  | [] => []
  | .start _ :: rest => names rest
  | .state n _ _ _ _ _ _ :: rest => n :: names rest

/-- The first name that occurs twice. -/
def repeated : List Token → Option Token
  | [] => none
  | n :: rest => if n ∈ rest then some n else repeated rest

/-- The location a name stands for: its place among the names. -/
def locate (ns : List Token) (n : Token) : Except TextError Nat :=
  if n ∈ ns then .ok (ns.idxOf n) else .error (.unknownName n)

/-- The raw records, next states as locations. -/
def rawRecords (ns : List Token) : List SourceLine → Except TextError (List RawRecord)
  | [] => .ok []
  | .start _ :: rest => rawRecords ns rest
  | .state _ out dur n0 n1 n2 n3 :: rest =>
    match locate ns n0, locate ns n1, locate ns n2, locate ns n3, rawRecords ns rest with
    | .ok a, .ok b, .ok c, .ok d, .ok rs => .ok (⟨out, dur, [a, b, c, d]⟩ :: rs)
    | .error e, _, _, _, _ => .error e
    | _, .error e, _, _, _ => .error e
    | _, _, .error e, _, _ => .error e
    | _, _, _, .error e, _ => .error e
    | _, _, _, _, .error e => .error e

/-- The start names given. -/
def starts : List SourceLine → List Token
  | [] => []
  | .start n :: rest => n :: starts rest
  | .state _ _ _ _ _ _ _ :: rest => starts rest

/-- The start location: the START line's state, else the first line's. -/
def startOf (ns : List Token) (ls : List SourceLine) : Except TextError Nat :=
  match starts ls with
  | [] => .ok 0
  | [n] => locate ns n
  | _ => .error .twoStarts

/-- A raw table and its start location from the lines. -/
def resolve (ls : List SourceLine) : Except TextError (List RawRecord × Nat) :=
  match repeated (names ls) with
  | some n => .error (.sameName n)
  | none =>
    match rawRecords (names ls) ls, startOf (names ls) ls with
    | .ok rs, .ok st => .ok (rs, st)
    | .error e, _ => .error e
    | _, .error e => .error e

/-- The raw table and start location a text stands for. -/
def parseTable (text : List (List Char)) : Except TextError (List RawRecord × Nat) :=
  match parseLines 0 text with
  | .error e => .error e
  | .ok ls => resolve ls

/-- A decimal digit's character. -/
def digitChar (d : Nat) : Char := Char.ofNat ('0'.toNat + d)

/-- The decimal digits of a number, most significant first, at most `fuel` of them. -/
def decimalDigits : Nat → Nat → Token
  | 0, _ => []
  | fuel + 1, n => if n < 10 then [digitChar n] else decimalDigits fuel (n / 10) ++ [digitChar (n % 10)]

/-- A pattern as six binary digits, `out[5]` first. -/
def binaryDigits (p : Pattern) : Token := [5, 4, 3, 2, 1, 0].map fun k => if p.getLsbD k then '1' else '0'

/-- The words of a line as R84 writes it. -/
def lineTokens : SourceLine → List Token
  | .start n => ["START".toList, n]
  | .state name out dur n0 n1 n2 n3 =>
    [name ++ [':'], "OUT".toList, binaryDigits out, "DUR".toList, decimalDigits (dur + 1) dur, "NEXT".toList,
     n0, n1, n2, n3]

end Sys2Proof.Machine
end

