-- ==== Sys2Proof/Machine/Cycle.lean ====
section
/-! DEFINITION. The cycle function and the output function of the block as 41_engine_operations.md R141 writes them,
over the pair `(S, CNT)`. The machine's step is proved against them. -/

namespace Sys2Proof.Machine

/-- `out : Table -> (S, CNT) -> (lights, sample)` (R141). -/
def outPorts (c : Config) (q : Nat × Nat) : Option (Pattern × Bool) :=
  (readRecord c q.1).map fun rec => (rec.out, timeUp rec q.2)

/-- `cycle : Table -> (S, CNT) -> (rst, tick, sensor) -> (S', CNT')` (R141), total on `S < NSTATES`; RESET ignores the
old pair, which may be unspecified (R137). -/
def cycle (c : Config) (q : Nat × Nat) (i : Inputs) : Option (Nat × Nat) :=
  if i.rst then some (c.start, 0)
  else
    match readRecord c q.1 with
    | none => none
    | some rec =>
      if timeUp rec q.2 then some (nextOf rec i.sensor, 0)
      else if i.tick then some (q.1, q.2 + 1)
      else some q

end Sys2Proof.Machine
end

