-- ==== Sys2Proof/Machine/HostApi.lean ====
section
/-! DEFINITION. The operations a host-testable build exposes (42_step_semantics.md R171 to R174): functions, with no
encoding. -/

namespace Sys2Proof.Machine

/-- The transition function `delta(TBL, s, r) = TBL[s].next[r]` (R171). -/
def delta (c : Config) (s : Nat) (r : Reading) : Option Nat := (readRecord c s).map fun rec => nextOf rec r

/-- `next_state` (R172): the next state with the pattern and the duration of the returned state. -/
def nextState (c : Config) (s : Nat) (r : Reading) : Option (Nat × Pattern × Nat) :=
  match delta c s r with
  | none => none
  | some n => (readRecord c n).map fun rec => (n, rec.out, rec.dur)

/-- The cursor after a list of readings: `s_(i+1) = delta(TBL, s_i, r_i)` (R174). -/
def deltas (c : Config) : Nat → List Reading → Option Nat
  | s, [] => some s
  | s, r :: rs =>
    match delta c s r with
    | none => none
    | some n => deltas c n rs

/-- The trace of a run over a list of readings: three events a step, in order (R175). -/
def loopTrace (c : Config) : Nat → List Reading → List Event
  | _, [] => []
  | s, r :: rs =>
    match readRecord c s with
    | none => []
    | some rec => .lightWrite rec.out :: .wait rec.dur :: .sensorRead r :: loopTrace c (nextOf rec r) rs

/-- How `run_n_steps` ended. -/
inductive LoopEnd
  /-- All steps were performed; the final cursor is the engine's (92_eei_decisions.md D28). -/
  | done
  /-- `PortFailure(step, port)`: a hosted port failed in step `step` of this call (60_exceptions.md R206). -/
  | portFailure (step : Nat) (port : Port)
  /-- The cursor names no record (20_memory.md R42); not reached from a fresh engine. -/
  | undefinedTableRead (index : Nat)
deriving DecidableEq, Repr

/-- The engine after the call, and how the call ended. -/
structure LoopResult where
  engine : State
  ended  : LoopEnd
deriving DecidableEq, Repr

/-- `n` iterations, the first of which has index `i`. A failed step leaves the cursor and performs none of the later
actions (60_exceptions.md R206). -/
def runLoop : Nat → Nat → State → LoopResult
  | 0, _, s => ⟨s, .done⟩
  | n + 1, i, s =>
    match current s with
    | none => ⟨s, .undefinedTableRead s.S⟩
    | some rec =>
      match loopStep rec s with
      | (t, some p) => ⟨endCycle t, .portFailure i p⟩
      | (t, none) => runLoop n (i + 1) (endCycle t)

/-- `run_n_steps(engine, N)` (42_step_semantics.md R174). `run_forever` is the same without the bound: the machine's
step, repeated. -/
def runNSteps (n : Nat) (s : State) : LoopResult := runLoop n 0 s

/-- The mirror of a state identifier of the reference table: the roads exchanged (40_transition_table.md R105). -/
def mirror : Nat → Nat
  | 0 => 2
  | 1 => 3
  | 2 => 0
  | 3 => 1
  | n => n

/-- A reading with its two bits exchanged (40_transition_table.md R105). -/
def swapReading (r : Reading) : Reading := readingOf (eastCar r) (northCar r)

end Sys2Proof.Machine
end

