-- ==== Sys2Proof/Safety.lean ====
section
/-! DEFINITION. What claims speak of: the invariant of a run, a run without reset, and safe lights. -/

namespace Sys2Proof.Machine

/-- The invariant of every state of a run (10_state.md R34): (I-a) `S < NSTATES`, (I-b) `CNT <= TBL[S].dur`, (I-c)
`CNT < 2^DUR_W`; in the control loop, which counts nothing, `CNT = 0` (log 6). That the table is valid is in the type of
`State.cfg`. -/
structure RunInv (s : State) : Prop where
  cursor   : s.S < s.cfg.nstates
  elapsed  : ∀ rec, current s = some rec → s.CNT ≤ rec.dur
  noWrap   : s.CNT < 2 ^ s.cfg.durW
  idleLoop : s.build ≠ .block → s.CNT = 0

/-- The ports of this step do not fail: always so outside a hosted build (60_exceptions.md R206). -/
def PortsWork (s : State) : Prop := portFails s .light = false ∧ portFails s .sensor = false

/-- `rst = 0` in each of the first `n` cycles of the run from `s`. -/
def NoReset : Nat → State → Prop
  | 0, _ => True
  | n + 1, s => (inputs s).rst = false ∧ ∀ t, step s = .next t → NoReset n t

/-- The readings sampled in the first `n` cycles of the block: those of its ADVANCE cycles (42_step_semantics.md
R176). -/
def sampled : Nat → State → List Reading
  | 0, _ => []
  | n + 1, s =>
    let later := match step s with
      | .next t => sampled n t
      | .fault _ => []
      | .refused _ => []
    if ctrlVector s = some (ctrlOf false true (inputs s).tick) then (inputs s).sensor :: later else later

/-- The number of time units the environment presents in these cycles: those with `tick = 1` (41_engine_operations.md
R132). -/
def ticks (l : List Inputs) : Nat := (l.filter fun i => i.tick).length

/-- The configuration of the reference design for some policy, durations of `DUR_W` bits and tick period (00_scope.md R7,
R8). -/
def Reference (c : Config) : Prop := ∃ p : RefParams, c = refConfig p

/-- The lights of the intersection are safe: each road shows exactly one light, and at least one road shows red
(40_transition_table.md R110). -/
def SafeLights (p : Pattern) : Prop :=
  litCount p .north = 1 ∧ litCount p .east = 1 ∧ (lit p .north .red = true ∨ lit p .east .red = true)

/-- A safe run for `n` steps: no step stops, and the lights are safe in every state of it. -/
def SafeRun : Nat → State → Prop
  | 0, s => ∃ p, lights s = some p ∧ SafeLights p
  | n + 1, s => (∃ p, lights s = some p ∧ SafeLights p) ∧ ∃ t, step s = .next t ∧ SafeRun n t

end Sys2Proof.Machine
end

