-- ==== Sys2Proof/Certificates/Slice0/Obligations.lean ====
section
/-! DEFINITION. The statements for the provers: each formalises rules of spec/ named in its docstring. What they say of the
model's own fields rests on the log: `ins` on 1, `now` on 2, `build` on 5, `trace` on 14. Every configuration has a table
that `validate` accepts, by its type (42_step_semantics.md R178, log 8). -/

open Sys2Proof Sys2Proof.Machine

/-! ### Encodings -/

/-- 30_encoding.md R80, R78: decoding the bytes of an instruction whose fields fit gives it back, a generic record that
is a reference image as that image's row; the row stands for the same record and has the same meaning. Any widths with
`STATE_W ≥ 1` (00_scope.md R7). The byte forms are the model's (log 11), the choice of row is log 12. -/
def Obligations.DecodeOfEncodeIsTheInstruction : Prop :=
  ∀ (wd : Widths) (i : Instr), 1 ≤ wd.stateW → i.fits wd = true →
    decodeBytes wd (encode wd i) = .ok (canonical wd i) ∧
    instrRecord (canonical wd i) = instrRecord i ∧
    ∀ s, exec (canonical wd i) s = exec i s

/-- 30_encoding.md R80: every word of `REC_W` bits decodes to a record whose fields fit, and encoding that record gives
the word: no bit is dropped. The row it decodes to stands for that record. -/
def Obligations.EveryRecordWordRoundTrips : Prop :=
  ∀ (wd : Widths) (w : Nat), w < 2 ^ recW wd →
    (decodeRecord wd w).fits wd = true ∧ encodeRecord wd (decodeRecord wd w) = w ∧
    instrRecord (decodeRec wd w) = some (decodeRecord wd w)

/-- 30_encoding.md R79: the words of the table of reference images decode to their rows, and the records of those rows
encode to the words. That a word which is a reference image decodes to the named row is the model's reading (log 12);
the match drives no decoder (R86). -/
def Obligations.ReferenceImagesDecodeToTheirRows : Prop :=
  decodeTableWord 32 0x210BB804 = some .goN ∧ encodeRecord refWidths (goNRecord .hold 3000) = 0x210BB804 ∧
  decodeTableWord 32 0x210BB844 = some .goNYield ∧ encodeRecord refWidths (goNRecord .yield 3000) = 0x210BB844 ∧
  decodeTableWord 32 0x2201F4AA = some .waitN ∧ encodeRecord refWidths (waitNRecord 500) = 0x2201F4AA ∧
  decodeTableWord 32 0x0C0BB8BA = some .goE ∧ encodeRecord refWidths (goERecord .hold 3000) = 0x0C0BB8BA ∧
  decodeTableWord 32 0x0C0BB8FA = some .goEYield ∧ encodeRecord refWidths (goERecord .yield 3000) = 0x0C0BB8FA ∧
  decodeTableWord 32 0x1401F400 = some .waitE ∧ encodeRecord refWidths (waitERecord 500) = 0x1401F400

/-- 30_encoding.md R78: the control vector `{rst, expired, tick}` decodes to exactly one of four operations; the vector
of a cycle has the comparator's output as its `expired`. -/
def Obligations.ControlVectorDecodesByItsTable : Prop :=
  ∀ rst exp tick : Bool,
    (rst = true → decodeCtrl (ctrlOf rst exp tick) = .reset) ∧
    (rst = false → exp = true → decodeCtrl (ctrlOf rst exp tick) = .advance) ∧
    (rst = false → exp = false → tick = true → decodeCtrl (ctrlOf rst exp tick) = .count) ∧
    (rst = false → exp = false → tick = false → decodeCtrl (ctrlOf rst exp tick) = .idle) ∧
    (ctrlOf rst exp tick).getLsbD 2 = rst ∧ (ctrlOf rst exp tick).getLsbD 1 = exp ∧
    (ctrlOf rst exp tick).getLsbD 0 = tick ∧
    ∀ s rec, current s = some rec →
      ctrlVector s = some (ctrlOf (inputs s).rst (decide (rec.dur ≤ s.CNT)) (inputs s).tick)

/-- 00_scope.md R7: `STATE_W = max(1, ceil(log2(NSTATES)))`, the least width of at least one bit that holds every
identifier below `NSTATES`. -/
def Obligations.StateWidthIsTheLeastThatFits : Prop :=
  ∀ n : Nat, 1 ≤ stateW n ∧ n ≤ 2 ^ stateW n ∧ ∀ k, 1 ≤ k → n ≤ 2 ^ k → stateW n ≤ k

/-- 30_encoding.md R75, R76: the reading is `2 * north + east` and is used as it stands to select among the four next
fields. -/
def Obligations.ReadingSelectsTheNextField : Prop :=
  ∀ (rec : Record) (north east : Bool),
    (readingOf north east).toNat = 2 * north.toNat + east.toNat ∧
    northCar (readingOf north east) = north ∧ eastCar (readingOf north east) = east ∧
    nextOf rec (readingOf north east) =
      (if north then (if east then rec.next3 else rec.next2) else (if east then rec.next1 else rec.next0))

/-- 30_encoding.md R72, R73: the six bits of a pattern, from bit 5 down: east red, east yellow, east green, north red,
north yellow, north green; a 1 is lit. -/
def Obligations.PatternBitsAreTheSixLights : Prop :=
  ∀ er ey eg nr ny ng : Bool,
    let p : Pattern := BitVec.ofBool er ++ (BitVec.ofBool ey ++ (BitVec.ofBool eg ++
      (BitVec.ofBool nr ++ (BitVec.ofBool ny ++ BitVec.ofBool ng))))
    lit p .east .red = er ∧ lit p .east .yellow = ey ∧ lit p .east .green = eg ∧
    lit p .north .red = nr ∧ lit p .north .yellow = ny ∧ lit p .north .green = ng

/-- 20_memory.md R44: the image of a table has `ceil(REC_W/8)` bytes for each record in ascending order, and reading it
back gives the words, which decode to the records. -/
def Obligations.TableImageReadsBack : Prop :=
  ∀ c : Config,
    (imageBytes c).length = c.nstates * recBytes c.widths ∧
    imageWords (recBytes c.widths) c.nstates (imageBytes c) = tableWords c ∧
    (tableWords c).map (decodeRecord c.widths) = c.tbl

/-- 30_encoding.md R84: the words of a line as the notation writes it parse to the line (a state has a name). The word
form of the text is the model's (log 18). -/
def Obligations.SourceLineParsesBack : Prop :=
  (∀ n, parseLine (lineTokens (.start n)) = some (.start n)) ∧
  ∀ name out dur n0 n1 n2 n3, name ≠ [] →
    parseLine (lineTokens (.state name out dur n0 n1 n2 n3)) = some (.state name out dur n0 n1 n2 n3)

/-! ### The four operations of a cycle -/

/-- 41_engine_operations.md R137, 70_reset_and_hazards.md R230: RESET loads `START` and clears `CNT`, whatever the old
state and the other inputs are, even where `TBL[S]` is undefined, and then the lights are `TBL[START].out`. -/
def Obligations.ResetLoadsStartAndClearsCount : Prop :=
  (∀ s, exec .reset s = .next { s with S := s.cfg.start, CNT := 0 }) ∧
  ∀ s, s.build = .block → (inputs s).rst = true →
    step s = .next (endCycle { s with S := s.cfg.start, CNT := 0 }) ∧
    ∀ rec, readRecord s.cfg s.cfg.start = some rec →
      lights (endCycle { s with S := s.cfg.start, CNT := 0 }) = some rec.out

/-- 41_engine_operations.md R138: ADVANCE goes to `TBL[S].next[sensor]` and clears `CNT`; it is the operation of a cycle
with `rst = 0` and the duration elapsed, whatever `tick` is. The next state is always defined in a run. With RESET it is
the only operation that writes `S`, and it alone reads `sensor`: the others do the same whatever the inputs are. -/
def Obligations.AdvanceEntersTheSampledState : Prop :=
  (∀ s rec, current s = some rec →
    exec .advance s = .next { s with S := nextOf rec (inputs s).sensor, CNT := 0 } ∧
    (s.build = .block → (inputs s).rst = false → rec.dur ≤ s.CNT →
      step s = .next (endCycle { s with S := nextOf rec (inputs s).sensor, CNT := 0 }))) ∧
  (∀ s, RunInv s → ∃ rec, current s = some rec ∧ ∀ r, nextOf rec r < s.cfg.nstates) ∧
  (∀ i s t, i = .count ∨ i = .idle → exec i s = .next t → t.S = s.S) ∧
  ∀ i s l, i = .reset ∨ i = .count ∨ i = .idle →
    exec i { s with ins := l } = mapNext (fun t => { t with ins := l }) (exec i s)

/-- 41_engine_operations.md R139: COUNT adds one unit to `CNT` and writes nothing else; it is the operation of a cycle
with `rst = 0`, the duration not elapsed and `tick = 1`, and there the sum fits `DUR_W` bits. -/
def Obligations.CountAddsOneUnit : Prop :=
  (∀ s, s.CNT + 1 < 2 ^ s.cfg.durW → exec .count s = .next { s with CNT := s.CNT + 1 }) ∧
  ∀ s rec, s.build = .block → current s = some rec → (inputs s).rst = false →
    s.CNT < rec.dur → (inputs s).tick = true →
    s.CNT + 1 < 2 ^ s.cfg.durW ∧ step s = .next (endCycle { s with CNT := s.CNT + 1 })

/-- The model's choice (log 10), from "unsigned in `DUR_W` bits" of 41_engine_operations.md R139: COUNT executed at the
largest `CNT`, which no run does, wraps to 0 and writes nothing else. -/
def Obligations.CountAtTheLargestValueWraps : Prop :=
  ∀ s, s.CNT + 1 = 2 ^ s.cfg.durW → exec .count s = .next { s with CNT := 0 }

/-- 41_engine_operations.md R140: IDLE writes no register; it is the operation of a cycle with `rst = 0`, the duration not
elapsed and `tick = 0`. -/
def Obligations.IdleWritesNothing : Prop :=
  (∀ s, exec .idle s = .next s) ∧
  ∀ s rec, s.build = .block → current s = some rec → (inputs s).rst = false →
    s.CNT < rec.dur → (inputs s).tick = false → step s = .next (endCycle s)

/-! ### The table records -/

/-- 40_transition_table.md R100, for the generic record: the step writes the pattern, waits the duration, reads the
sensor once, in this order, and goes to the next state the reading selects; the output does not depend on the reading.
A step of the control loop at `S` is this step over `TBL[S]`. That `CNT` is then 0 is not claimed here (log 6). -/
def Obligations.GenericRecordRunsOneStep : Prop :=
  (∀ out dur n3 n2 n1 n0 s, PortsWork s →
    ∃ t, exec (.state out dur n3 n2 n1 n0) s = .next t ∧
      t.S = (if (inputs s).sensor = 0 then n0 else if (inputs s).sensor = 1 then n1
        else if (inputs s).sensor = 2 then n2 else n3) ∧
      t.trace = s.trace ++ [.lightWrite out, .wait dur, .sensorRead (inputs s).sensor] ∧
      t.cfg = s.cfg) ∧
  ∀ s rec, s.build ≠ .block → current s = some rec →
    step s = mapNext endCycle (exec (.state rec.out rec.dur rec.next3 rec.next2 rec.next1 rec.next0) s)

/-- 40_transition_table.md R103, R105, R107: the four go rows. goN holds unless the reading is 1 (under `YIELD` also 3),
goE unless it is 2 (under `YIELD` also 3); each shows its pattern for 3000 units. -/
def Obligations.GoRowsHoldUnlessDemand : Prop :=
  ∀ s, PortsWork s →
    (∃ t, exec .goN s = .next t ∧ t.S = (if (inputs s).sensor = 1 then 1 else 0) ∧
      t.trace = s.trace ++ [.lightWrite 0b100001, .wait 3000, .sensorRead (inputs s).sensor]) ∧
    (∃ t, exec .goNYield s = .next t ∧
      t.S = (if (inputs s).sensor = 1 ∨ (inputs s).sensor = 3 then 1 else 0) ∧
      t.trace = s.trace ++ [.lightWrite 0b100001, .wait 3000, .sensorRead (inputs s).sensor]) ∧
    (∃ t, exec .goE s = .next t ∧ t.S = (if (inputs s).sensor = 2 then 3 else 2) ∧
      t.trace = s.trace ++ [.lightWrite 0b001100, .wait 3000, .sensorRead (inputs s).sensor]) ∧
    (∃ t, exec .goEYield s = .next t ∧
      t.S = (if (inputs s).sensor = 2 ∨ (inputs s).sensor = 3 then 3 else 2) ∧
      t.trace = s.trace ++ [.lightWrite 0b001100, .wait 3000, .sensorRead (inputs s).sensor])

/-- 40_transition_table.md R104, R106: the two wait rows advance unconditionally after 500 units. -/
def Obligations.WaitRowsAdvanceUnconditionally : Prop :=
  ∀ s, PortsWork s →
    (∃ t, exec .waitN s = .next t ∧ t.S = 2 ∧
      t.trace = s.trace ++ [.lightWrite 0b100010, .wait 500, .sensorRead (inputs s).sensor]) ∧
    (∃ t, exec .waitE s = .next t ∧ t.S = 0 ∧
      t.trace = s.trace ++ [.lightWrite 0b010100, .wait 500, .sensorRead (inputs s).sensor])

/-- 60_exceptions.md R206 and log 7: in a hosted build a failing port stops the step of any record row with the fault
`PortFailure`, whose step number is the model's count; in no other build does a record row stop. -/
def Obligations.RecordRowsStopOnlyOnAFailingHostedPort : Prop :=
  ∀ i rec s, instrRecord i = some rec →
    (∀ p, s.build = .hosted → (inputs s).portFault = some p → exec i s = .fault (.portFailure s.now p)) ∧
    (s.build ≠ .hosted ∨ (inputs s).portFault = none → ∃ t, exec i s = .next t)

/-! ### Frames -/

/-- What every instruction leaves unchanged when it answers a next state (20_memory.md R43, 10_state.md R20, R21, R23):
the table and every other parameter, so every location reads as before; the form that runs and the inputs; `S` but for
RESET, ADVANCE and the records; the trace but for the three events of a record. (`CNT = 0` after a record is log 6.) -/
def Obligations.InstructionFrames : Prop :=
  ∀ i s t, exec i s = .next t →
    t.cfg = s.cfg ∧ (∀ a, readWord t.cfg a = readWord s.cfg a) ∧ t.build = s.build ∧ t.ins = s.ins ∧ t.now = s.now ∧
    (instrRecord i = none → t.trace = s.trace) ∧
    (∀ rec, instrRecord i = some rec →
      t.CNT = 0 ∧ t.trace = s.trace ++ [.lightWrite rec.out, .wait rec.dur, .sensorRead (inputs s).sensor]) ∧
    (i = .reset ∨ i = .advance → t.CNT = 0) ∧
    (i = .count → t.S = s.S) ∧ (i = .idle → t = s)

/-- 20_memory.md R43: no operation writes `TBL`, and no run of steps, whatever its inputs, changes what any location
reads. -/
def Obligations.TableIsNeverWritten : Prop :=
  (∀ i s t, exec i s = .next t → t.cfg = s.cfg) ∧
  ∀ n s t, Host.Core.run core n s = .next t → t.cfg = s.cfg ∧ ∀ i, readRecord t.cfg i = readRecord s.cfg i

/-- 10_state.md R21: only RESET and ADVANCE write `S`: in a cycle with `rst = 0` in which the duration has not elapsed,
`S` and so the lights stay. -/
def Obligations.OnlyResetAndAdvanceMoveTheCursor : Prop :=
  ∀ s t rec, s.build = .block → current s = some rec → (inputs s).rst = false → s.CNT < rec.dur → step s = .next t →
    t.S = s.S ∧ lights t = lights s ∧
    t.CNT = (if (inputs s).tick then s.CNT + 1 else s.CNT)

/-! ### The step -/

/-- A step runs the decoded instruction: the operation of the control vector in the block (41_engine_operations.md R130),
the record at `S` in the control loop (42_step_semantics.md R170). Which row a record word decodes to is the model's
reading (log 12). What the end of the step does to the model's own fields is its choice: the used inputs leave the queue
(log 1), the counter of the free inputs goes up by one (log 2). -/
def Obligations.StepRunsTheDecodedInstruction : Prop :=
  ∀ s,
    (∀ c, s.build = .block → ctrlVector s = some c → step s = mapNext endCycle (exec (decodeCtrl c) s)) ∧
    (∀ w, s.build ≠ .block → readWord s.cfg s.S = some w →
      step s = mapNext endCycle (exec (decodeRec s.cfg.widths w) s)) ∧
    (endCycle s).ins = s.ins.tail ∧ (endCycle s).now = s.now + 1 ∧ (endCycle s).S = s.S ∧
    (endCycle s).CNT = s.CNT ∧ (endCycle s).cfg = s.cfg ∧ (endCycle s).build = s.build ∧
    (endCycle s).trace = s.trace

/-- 41_engine_operations.md R136: exactly one operation a cycle, by priority: RESET if `rst = 1`, otherwise ADVANCE if
expired, otherwise COUNT if `tick = 1`, otherwise IDLE. -/
def Obligations.OneOperationPerCycleByPriority : Prop :=
  ∀ s rec, s.build = .block → current s = some rec →
    step s = mapNext endCycle (exec
      (if (inputs s).rst then .reset else if rec.dur ≤ s.CNT then .advance else if (inputs s).tick then .count
        else .idle) s)

/-- 41_engine_operations.md R141: a cycle of the block is the spec's cycle function of `(S, CNT)` and the inputs, for any
`CNT` of `DUR_W` bits; where the function is undefined the step is refused. (What becomes of `ins` and `now` is logs 1
and 2.) -/
def Obligations.StepIsTheCycleFunction : Prop :=
  ∀ s, s.build = .block → s.CNT < 2 ^ s.cfg.durW →
    (∀ q, cycle s.cfg (s.S, s.CNT) (inputs s) = some q →
      step s = .next { s with S := q.1, CNT := q.2, ins := s.ins.tail, now := s.now + 1 }) ∧
    (cycle s.cfg (s.S, s.CNT) (inputs s) = none → step s = .refused (.undefinedTableRead s.S))

/-- 41_engine_operations.md R134, R135, 40_transition_table.md R100: the lights are `TBL[S].out` and depend on `S` and
the table alone, and `sample` is 1 exactly when `CNT >= TBL[S].dur`. -/
def Obligations.OutputsAreMooreOutputs : Prop :=
  (∀ s rec, current s = some rec → lights s = some rec.out ∧ sample s = some (decide (rec.dur ≤ s.CNT)) ∧
    outPorts s.cfg (s.S, s.CNT) = some (rec.out, decide (rec.dur ≤ s.CNT))) ∧
  ∀ s t, s.cfg = t.cfg → s.S = t.S → lights s = lights t

/-- 42_step_semantics.md R178, 60_exceptions.md R205: a table that fails `validate` is refused, not run: construction gives
the error and no block, and no state of the machine, reached or not, has such a table; the table of every state is in
canonical form (log 21). -/
def Obligations.InvalidTableNeverRuns : Prop :=
  (∀ p raw e, validate p.nstates p.durW p.start raw = some e → construct p raw = .error e) ∧
  (∀ (s : State) e, validate s.cfg.nstates s.cfg.durW s.cfg.start (s.cfg.tbl.map rawOf) ≠ some e) ∧
  ∀ s : State, tableWf s.cfg = true

/-- 20_memory.md R42: a table read at or above `NSTATES` returns no record; a step that needs it is refused, but RESET
needs none (log 9). Every step reads the whole record at `S`. -/
def Obligations.UndefinedTableReadIsRefused : Prop :=
  (∀ (c : Config) i, c.nstates ≤ i → readRecord c i = none) ∧
  ∀ s, s.cfg.nstates ≤ s.S →
    (s.build ≠ .block → step s = .refused (.undefinedTableRead s.S)) ∧
    (s.build = .block → (inputs s).rst = false → step s = .refused (.undefinedTableRead s.S)) ∧
    (s.build = .block → (inputs s).rst = true → ∃ t, step s = .next t ∧ t.S = s.cfg.start ∧ t.CNT = 0) ∧
    exec .advance s = .refused (.undefinedTableRead s.S)

/-! ### Ignored inputs -/

/-- 41_engine_operations.md R142, 20_memory.md R53: in a cycle that is no ADVANCE the value of `sensor` changes neither
the next state nor an output. -/
def Obligations.SensorIsIgnoredOutsideAdvance : Prop :=
  ∀ s i rest rec r, s.build = .block → s.ins = i :: rest → current s = some rec →
    i.rst = true ∨ s.CNT < rec.dur →
    step { s with ins := { i with sensor := r } :: rest } = step s ∧
    lights { s with ins := { i with sensor := r } :: rest } = lights s ∧
    sample { s with ins := { i with sensor := r } :: rest } = sample s

/-- 41_engine_operations.md R143: a time unit presented in the cycle of an ADVANCE or a RESET is lost: the step is the
same without it, and `CNT` is written 0. -/
def Obligations.TickIsLostInAdvanceAndReset : Prop :=
  ∀ s i rest rec b, s.build = .block → s.ins = i :: rest → current s = some rec →
    i.rst = true ∨ rec.dur ≤ s.CNT →
    step { s with ins := { i with tick := b } :: rest } = step s ∧
    ∃ t, step s = .next t ∧ t.CNT = 0

/-! ### Reset and invariants -/

/-- 10_state.md R33, 70_reset_and_hazards.md R231: after reset `S = START`, `CNT = 0`, the lights are `TBL[START].out`,
and `sample = 1` exactly if that state's duration is 0; in the reference design `S = 0`, lights `100001`, `sample = 0`.
(That the reset state carries the reference design is log 4.) -/
def Obligations.StateAfterReset : Prop :=
  (∀ c b ins rec, readRecord c c.start = some rec →
    (State.start c b ins).S = c.start ∧ (State.start c b ins).CNT = 0 ∧
    lights (State.start c b ins) = some rec.out ∧ sample (State.start c b ins) = some (decide (rec.dur = 0))) ∧
  State.reset.S = 0 ∧ State.reset.CNT = 0 ∧ lights State.reset = some 0b100001 ∧ sample State.reset = some false

/-- 10_state.md R34: the invariant holds after reset, for every configuration. -/
def Obligations.InvariantHoldsAfterReset : Prop :=
  (∀ c b ins, RunInv (State.start c b ins)) ∧ RunInv State.reset

/-- 10_state.md R34: every step keeps the invariant: `S < NSTATES`, `CNT <= TBL[S].dur`, no wrap. (That the control loop
keeps `CNT = 0` is log 6.) -/
def Obligations.StepKeepsTheInvariant : Prop :=
  ∀ s t, RunInv s → step s = .next t → RunInv t

/-- 60_exceptions.md R207, 40_transition_table.md R101: nothing stops a step of a state that meets the invariant, but a
failing port of a hosted build (log 7). -/
def Obligations.OnlyAFailingHostedPortStopsAStep : Prop :=
  ∀ s, RunInv s → (∃ t, step s = .next t) ∨
    (s.build = .hosted ∧ ∃ p, (inputs s).portFault = some p ∧ step s = .fault (.portFailure s.now p))

/-- 41_engine_operations.md R141 ("A run never ends"), 60_exceptions.md R207: outside a hosted build a run from a state
that meets the invariant goes on for any number of steps and meets it throughout. -/
def Obligations.EveryRunGoesOn : Prop :=
  ∀ n s, RunInv s → s.build ≠ .hosted → ∃ t, Host.Core.run core n s = .next t ∧ RunInv t

/-- 40_transition_table.md R101: in every table a block can have every state has a next state for every reading, and it is
below `NSTATES`. -/
def Obligations.TransitionFunctionIsTotal : Prop :=
  ∀ (c : Config) s r, s < c.nstates → ∃ n, delta c s r = some n ∧ n < c.nstates

/-! ### Holds and steps in cycles -/

/-- 20_memory.md R51: in the first cycle after a RESET or an ADVANCE the lights are already the new state's pattern and
`CNT = 0`; and a time unit is counted only in a cycle in which the lights show the pattern of the state it counts for. -/
def Obligations.PatternIsOnBeforeItsHoldBegins : Prop :=
  ∀ s t rec, RunInv s → s.build = .block → current s = some rec → step s = .next t →
    ((inputs s).rst = true ∨ rec.dur ≤ s.CNT →
      t.CNT = 0 ∧ ∃ rec', readRecord t.cfg t.S = some rec' ∧ lights t = some rec'.out) ∧
    (t.CNT = s.CNT + 1 → t.S = s.S ∧ lights s = some rec.out ∧ lights t = some rec.out)

/-- 20_memory.md R52, R57, 41_engine_operations.md R148, R149: while `rst = 0` nothing but counted ticks moves a hold: as
long as the ticks presented do not complete the duration, the state stays and `CNT` counts exactly them (with no tick the
block stands still for ever). (What becomes of `ins` and `now` is logs 1 and 2.) -/
def Obligations.OnlyTicksMoveAHold : Prop :=
  ∀ n s rec, s.build = .block → current s = some rec → n ≤ s.ins.length →
    (∀ i ∈ s.ins.take n, i.rst = false) → s.CNT + ticks (s.ins.take n) < rec.dur →
    Host.Core.run core n s =
      .next { s with CNT := s.CNT + ticks (s.ins.take n), ins := s.ins.drop n, now := s.now + n }

/-- 41_engine_operations.md R145: a state entered with duration `d` is held until the cycle of the `d`-th tick and
advances in the cycle after it, on the reading of that cycle: `S` and the lights stay in all cycles of the step, and
`sample` is 1 in its last cycle only. (What becomes of `ins` and `now` is logs 1 and 2.) -/
def Obligations.StepLastsUntilTheLastTickAndOneCycle : Prop :=
  ∀ s rec hold a rest, s.build = .block → current s = some rec → s.CNT = 0 →
    s.ins = hold ++ a :: rest → (∀ i ∈ hold, i.rst = false) → a.rst = false → ticks hold = rec.dur →
    (∀ pre last, hold = pre ++ [last] → last.tick = true) →
    Host.Core.run core (hold.length + 1) s = .next
      { s with S := nextOf rec a.sensor, CNT := 0, ins := rest, now := s.now + hold.length + 1 } ∧
    ∀ k ≤ hold.length, ∃ t, Host.Core.run core k s = .next t ∧ t.S = s.S ∧ lights t = lights s ∧
      sample t = some (decide (k = hold.length))

/-- 41_engine_operations.md R147: a self-loop keeps `S` and the lights, clears `CNT`, and the full duration is waited
again: the next cycle samples only if the duration is 0 (R144). -/
def Obligations.SelfLoopHoldsTheFullDurationAgain : Prop :=
  ∀ s rec, s.build = .block → current s = some rec → (inputs s).rst = false →
    rec.dur ≤ s.CNT → nextOf rec (inputs s).sensor = s.S →
    ∃ t, step s = .next t ∧ t.S = s.S ∧ t.CNT = 0 ∧ lights t = lights s ∧ sample t = some (decide (rec.dur = 0))

/-! ### The two levels and the host functions -/

/-- 42_step_semantics.md R176: the block refines the control loop. In any run of the block with `rst = 0`, the cursor
is where the loop arrives on the readings sampled in the ADVANCE cycles, and a loop given those readings runs to that
cursor and its lights. -/
def Obligations.BlockRefinesTheControlLoop : Prop :=
  ∀ n s t, RunInv s → s.build = .block → NoReset n s → Host.Core.run core n s = .next t →
    deltas s.cfg s.S (sampled n s) = some t.S ∧
    ∀ u, u.cfg = s.cfg → u.build = .loop → u.S = s.S → u.ins.map (fun i => i.sensor) = sampled n s →
      ∃ v, Host.Core.run core (sampled n s).length u = .next v ∧ v.S = t.S ∧ lights v = lights t

/-- 42_step_semantics.md R174, R175: `run_n_steps` on the embedded loop performs `n` steps, which are `n` steps of the
machine; the final cursor is `delta` iterated over the readings, and the trace grows by the three events of each step;
`n = 0` does nothing. -/
def Obligations.RunNStepsIteratesDelta : Prop :=
  ∀ n s, RunInv s → s.build = .loop → n ≤ s.ins.length →
    (runNSteps n s).ended = .done ∧
    Host.Core.run core n s = .next (runNSteps n s).engine ∧
    deltas s.cfg s.S ((s.ins.take n).map fun i => i.sensor) = some (runNSteps n s).engine.S ∧
    (runNSteps n s).engine.trace = s.trace ++ loopTrace s.cfg s.S ((s.ins.take n).map fun i => i.sensor) ∧
    (n = 0 → (runNSteps n s).engine = s)

/-- 60_exceptions.md R206: in a hosted build the loop stops at the first failing port: the cursor is that of the aborted
step, only the actions before the failing one were performed, and the error names the step and the port. That the
failing action itself is no event is the model's choice (log 22), the numbering of the step is log 7. -/
def Obligations.RunNStepsStopsAtTheFailingPort : Prop :=
  ∀ n s good bad rest p, RunInv s → s.build = .hosted → s.ins = good ++ bad :: rest →
    (∀ i ∈ good, i.portFault = none) → bad.portFault = some p → good.length < n →
    (runNSteps n s).ended = .portFailure good.length p ∧
    deltas s.cfg s.S (good.map fun i => i.sensor) = some (runNSteps n s).engine.S ∧
    ∀ rec, readRecord s.cfg (runNSteps n s).engine.S = some rec →
      (runNSteps n s).engine.trace = s.trace ++ loopTrace s.cfg s.S (good.map fun i => i.sensor) ++
        (match p with | .light => [] | .sensor => [.lightWrite rec.out, .wait rec.dur])

/-- 42_step_semantics.md R181, R174: after `n + 1` steps of the loop the software light port shows the pattern of the last
state executed, while the cursor already names the next one. -/
def Obligations.SoftwareLightPortLagsTheCursor : Prop :=
  ∀ n s, RunInv s → s.build = .loop → n + 1 ≤ s.ins.length →
    ∃ last rec, deltas s.cfg s.S ((s.ins.take n).map fun i => i.sensor) = some last ∧
      readRecord s.cfg last = some rec ∧ lightPort (runNSteps (n + 1) s).engine = some rec.out ∧
      deltas s.cfg s.S ((s.ins.take (n + 1)).map fun i => i.sensor) = some (runNSteps (n + 1) s).engine.S

/-- 42_step_semantics.md R172: `next_state` returns the next state with the returned state's pattern and duration (the
spec's decision D18). -/
def Obligations.NextStateDescribesTheReturnedState : Prop :=
  ∀ (c : Config) s r, s < c.nstates →
    ∃ n rec, delta c s r = some n ∧ readRecord c n = some rec ∧ nextState c s r = some (n, rec.out, rec.dur)

/-! ### Validation and construction -/

/-- 42_step_semantics.md R177, 30_encoding.md R81, R82: `validate` accepts exactly the tables of `NSTATES >= 1` records,
`START` among them, each with four entries below `NSTATES`, at most one light per road and a duration of `DUR_W` bits. -/
def Obligations.ValidateAcceptsExactlyTheLegalTables : Prop :=
  ∀ n w st raw, validate n w st raw = none ↔
    1 ≤ n ∧ raw.length = n ∧ st < n ∧ ∀ r ∈ raw,
      (∀ k < 4, ∃ t, r.next[k]? = some t ∧ t < n) ∧ litCount r.out .north ≤ 1 ∧ litCount r.out .east ≤ 1 ∧
      r.dur < 2 ^ w

/-- 60_exceptions.md R203, 42_step_semantics.md R177: `validate` reports the first error of its scan: V1, then V4, then
for each record in ascending order V2a for readings 0 to 3, V2b for readings 0 to 3, V3 north, V3 east, V5. -/
def Obligations.ValidateReportsTheFirstError : Prop :=
  (∀ n w st raw, n < 1 ∨ raw.length ≠ n → validate n w st raw = some (.badTableSize raw.length n)) ∧
  (∀ n w st raw, 1 ≤ n → raw.length = n → n ≤ st → validate n w st raw = some (.badStart st)) ∧
  (∀ n w st good r later e, (good ++ r :: later).length = n → st < n →
    (∀ k q, good[k]? = some q → recordError n w k q = none) → recordError n w good.length r = some e →
    validate n w st (good ++ r :: later) = some e) ∧
  ∀ n w s r,
    (∀ k < 4, (∀ j < k, r.next[j]? ≠ none) → r.next[k]? = none →
      recordError n w s r = some (.missingTransition s k)) ∧
    ((∀ j < 4, r.next[j]? ≠ none) →
      (∀ k < 4, ∀ t, (∀ j < k, ∀ u, r.next[j]? = some u → u < n) → r.next[k]? = some t → n ≤ t →
        recordError n w s r = some (.badTarget s k t)) ∧
      ((∀ j < 4, ∀ u, r.next[j]? = some u → u < n) →
        (1 < litCount r.out .north → recordError n w s r = some (.outputConflict s .north)) ∧
        (litCount r.out .north ≤ 1 → 1 < litCount r.out .east →
          recordError n w s r = some (.outputConflict s .east)) ∧
        (litCount r.out .north ≤ 1 → litCount r.out .east ≤ 1 → 2 ^ w ≤ r.dur →
          recordError n w s r = some (.durationRange s r.dur))))

/-- 30_encoding.md R81 (a): of the 64 patterns 16 are legal, those that light at most one light per road. -/
def Obligations.SixteenPatternsAreLegal : Prop :=
  ((List.range 64).filter fun k => patternLegal (BitVec.ofNat 6 k)).length = 16

/-- 42_step_semantics.md R178: construction succeeds exactly when `validate` does; the block it builds has the given
parameters, and each of its locations reads back the given record, as a record and as a word. -/
def Obligations.ConstructionBuildsTheGivenTable : Prop :=
  ∀ p raw,
    (validate p.nstates p.durW p.start raw = none ↔ ∃ c, construct p raw = .ok c) ∧
    ∀ c, construct p raw = .ok c →
      c.toParams = p ∧
      ∀ i r, raw[i]? = some r → ∃ rec, readRecord c i = some rec ∧
        (∃ w, readWord c i = some w ∧ w < 2 ^ recW c.widths ∧ decodeRecord c.widths w = rec) ∧
        rec.out = r.out ∧ rec.dur = r.dur ∧
        r.next[0]? = some rec.next0 ∧ r.next[1]? = some rec.next1 ∧ r.next[2]? = some rec.next2 ∧
        r.next[3]? = some rec.next3

/-! ### The reference table, for both policies and all durations of 16 bits -/

/-- 42_step_semantics.md R177, 40_transition_table.md R108: the reference table passes `validate` for both values of
`BOTH_POLICY`, and construction gives the reference configuration. -/
def Obligations.ReferenceTableIsAdmitted : Prop :=
  ∀ p : RefParams, validate 4 16 0 (refTable p) = none ∧ construct (refNumbers p) (refTable p) = .ok (refConfig p)

/-- 40_transition_table.md R108, 42_step_semantics.md R171: the sixteen values of the reference transition function under
each policy. -/
def Obligations.ReferenceTransitions : Prop :=
  ∀ p : RefParams,
    (∀ r, delta (refConfig p) 0 r = some (if r = 1 ∨ (r = 3 ∧ p.bothPolicy = .yield) then 1 else 0)) ∧
    (∀ r, delta (refConfig p) 1 r = some 2) ∧
    (∀ r, delta (refConfig p) 2 r = some (if r = 2 ∨ (r = 3 ∧ p.bothPolicy = .yield) then 3 else 2)) ∧
    (∀ r, delta (refConfig p) 3 r = some 0)

/-- 40_transition_table.md R109: the design intent P1 to P5, for both policies. -/
def Obligations.PrioritySchemeOfTheReferenceTable : Prop :=
  ∀ p : RefParams,
    ∃ goN waitN goE waitE, readRecord (refConfig p) 0 = some goN ∧ readRecord (refConfig p) 1 = some waitN ∧
      readRecord (refConfig p) 2 = some goE ∧ readRecord (refConfig p) 3 = some waitE ∧
      (goN.next0 = 0 ∧ goN.next2 = 0 ∧ goE.next0 = 2 ∧ goE.next1 = 2) ∧
      (goN.next1 = 1 ∧ goE.next2 = 3) ∧
      (∀ r, nextOf waitN r = 2 ∧ nextOf waitE r = 0) ∧
      (waitN.dur = p.durWait.toNat ∧ waitE.dur = p.durWait.toNat) ∧
      ∀ r, (nextOf goN r = 0 ∨ nextOf goN r = 1) ∧ (nextOf goE r = 2 ∨ nextOf goE r = 3)

/-- 40_transition_table.md R105: the symmetry of the reference table: exchange the roads in the state and in the reading,
and the next state is exchanged. -/
def Obligations.ReferenceTableIsSymmetric : Prop :=
  ∀ (p : RefParams) s r, s < 4 →
    delta (refConfig p) (mirror s) (swapReading r) = (delta (refConfig p) s r).map mirror

/-- 95_test_vectors.md L1-3 (from 40_transition_table.md R103, R105): fed "no cars" or its own road's car alone, a go state
is kept for any number of steps; under `HOLD` cars on both roads keep it too. -/
def Obligations.GoStateHoldsWithoutConflictingDemand : Prop :=
  ∀ (p : RefParams) rs,
    ((∀ r ∈ rs, r = 0 ∨ r = 2 ∨ (r = 3 ∧ p.bothPolicy = .hold)) → deltas (refConfig p) 0 rs = some 0) ∧
    ((∀ r ∈ rs, r = 0 ∨ r = 1 ∨ (r = 3 ∧ p.bothPolicy = .hold)) → deltas (refConfig p) 2 rs = some 2)

/-- 40_transition_table.md R110: in every cycle of every run of the reference block, resets included, each road shows
exactly one light and at least one road shows red; and no cycle stops. -/
def Obligations.ReferenceLightsAreSafeInEveryCycle : Prop :=
  ∀ n s, Reference s.cfg → RunInv s → s.build = .block → SafeRun n s

/-- 40_transition_table.md R110 at the step level (42_step_semantics.md R175): every pattern the loop writes over the
reference table is safe. -/
def Obligations.LoopWritesOnlySafePatterns : Prop :=
  ∀ c s rs q, Reference c → .lightWrite q ∈ loopTrace c s rs → SafeLights q

/-- 40_transition_table.md R109 (P5), R111: in a cycle of the reference block with `rst = 0` a green is followed by
itself or by its own road's yellow, and a yellow by itself or by the other road's green, the other lights red. -/
def Obligations.GreenGivesWayThroughItsOwnYellow : Prop :=
  ∀ s t, Reference s.cfg → RunInv s → s.build = .block → (inputs s).rst = false → step s = .next t →
    ∃ p q, lights s = some p ∧ lights t = some q ∧ (q = p ∨
      (lit p .north .green = true ∧ lit q .north .yellow = true ∧ lit q .east .red = true) ∨
      (lit p .north .yellow = true ∧ lit q .east .green = true ∧ lit q .north .red = true) ∨
      (lit p .east .green = true ∧ lit q .east .yellow = true ∧ lit q .north .red = true) ∨
      (lit p .east .yellow = true ∧ lit q .north .green = true ∧ lit q .east .red = true))
end

