-- ==== Sys2Proof/Laws/Encoding.lean ====
section
/-! SUPPORT. The lemmas of the two encodings: widths, slices and concatenations, records, bytes, control vectors. -/

namespace Sys2Proof

/-! ### Widths -/

theorem le_two_pow_ceilLog2From (fuel n k : Nat) (h : n ≤ 2 ^ (k + fuel)) : n ≤ 2 ^ ceilLog2From fuel n k := by
  induction fuel generalizing k with
  | zero => simpa [ceilLog2From] using h
  | succ f ih =>
    simp only [ceilLog2From]
    split
    · assumption
    · exact ih (k + 1) (by rwa [Nat.add_right_comm, ← Nat.add_assoc] at *)

theorem ceilLog2From_le (fuel n k j : Nat) (hk : k ≤ j) (hj : n ≤ 2 ^ j) : ceilLog2From fuel n k ≤ j := by
  induction fuel generalizing k with
  | zero => simpa [ceilLog2From] using hk
  | succ f ih =>
    simp only [ceilLog2From]
    split
    · exact hk
    · rename_i h
      exact ih (k + 1) (by rcases Nat.lt_or_eq_of_le hk with h' | h'; exacts [h', absurd hj (h' ▸ h)])

theorem one_le_stateW (n : Nat) : 1 ≤ stateW n := Nat.le_max_left ..

/-- Every state identifier fits `STATE_W` bits (00_scope.md R7). -/
theorem le_two_pow_stateW (n : Nat) : n ≤ 2 ^ stateW n := by
  have h : n ≤ 2 ^ ceilLog2 n := le_two_pow_ceilLog2From n n 0 (by simpa using Nat.lt_two_pow_self.le)
  exact h.trans (Nat.pow_le_pow_right (by decide) (Nat.le_max_right ..))

/-! ### Slices and concatenations -/

theorem cat_div (a b len : Nat) (h : b < 2 ^ len) : cat a b len / 2 ^ len = a := by
  rw [cat, Nat.mul_comm, Nat.mul_add_div (by positivity), Nat.div_eq_of_lt h, Nat.add_zero]

theorem cat_mod (a b len : Nat) (h : b < 2 ^ len) : cat a b len % 2 ^ len = b := by
  rw [cat, Nat.mul_comm, Nat.mul_add_mod, Nat.mod_eq_of_lt h]

theorem cat_div_mod (w len : Nat) : cat (w / 2 ^ len) (w % 2 ^ len) len = w := by
  rw [cat, Nat.mul_comm]; exact Nat.div_add_mod w (2 ^ len)

theorem cat_lt (a b len m : Nat) (ha : a < 2 ^ m) (hb : b < 2 ^ len) : cat a b len < 2 ^ (m + len) := by
  rw [cat, Nat.pow_add]
  calc a * 2 ^ len + b < a * 2 ^ len + 2 ^ len := by omega
    _ = (a + 1) * 2 ^ len := by ring
    _ ≤ 2 ^ m * 2 ^ len := Nat.mul_le_mul_right _ ha

/-- A slice above the low part of a concatenation is a slice of the high part. -/
theorem slice_cat_high (a b n lo len : Nat) (h : b < 2 ^ n) : slice (cat a b n) (n + lo) len = slice a lo len := by
  rw [slice, slice, Nat.pow_add, ← Nat.div_div_eq_div_mul, cat_div _ _ _ h]

/-- The low slice of a concatenation is its low part. -/
theorem slice_cat_low (a b n : Nat) (h : b < 2 ^ n) : slice (cat a b n) 0 n = b := by
  simp [slice, cat_mod _ _ _ h]

theorem slice_lt (w lo len : Nat) : slice w lo len < 2 ^ len := Nat.mod_lt _ (by positivity)

/-- Two neighbouring slices join to one. -/
theorem cat_slice_slice (w lo m n : Nat) : cat (slice w (lo + n) m) (slice w lo n) n = slice w lo (n + m) := by
  simp only [slice, Nat.pow_add, ← Nat.div_div_eq_div_mul, cat]
  rw [Nat.mod_mul, Nat.mul_comm, Nat.add_comm]

/-! ### Records -/

theorem fits_iff (wd : Widths) (r : Record) : r.fits wd = true ↔
    r.dur < 2 ^ wd.durW ∧ r.next3 < 2 ^ wd.stateW ∧ r.next2 < 2 ^ wd.stateW ∧ r.next1 < 2 ^ wd.stateW
      ∧ r.next0 < 2 ^ wd.stateW := by
  simp [Record.fits, and_assoc]

theorem decodeRecord_fits (wd : Widths) (w : Nat) : (decodeRecord wd w).fits wd = true := by
  simp [fits_iff, decodeRecord, slice_lt]

/-- Decoding the word of a record whose fields fit gives the record (30_encoding.md R80). -/
theorem decodeRecord_encodeRecord (wd : Widths) (r : Record) (h : r.fits wd = true) :
    decodeRecord wd (encodeRecord wd r) = r := by
  obtain ⟨hd, h3, h2, h1, h0⟩ := (fits_iff wd r).1 h
  obtain ⟨out, dur, n3, n2, n1, n0⟩ := r
  have e3 : 3 * wd.stateW = wd.stateW + (wd.stateW + (wd.stateW + 0)) := by ring
  have e4 : 4 * wd.stateW = wd.stateW + (wd.stateW + (wd.stateW + (wd.stateW + 0))) := by ring
  have e5 : 4 * wd.stateW + wd.durW = wd.stateW + (wd.stateW + (wd.stateW + (wd.stateW + (wd.durW + 0)))) := by ring
  have e2 : 2 * wd.stateW = wd.stateW + (wd.stateW + 0) := by ring
  have e1 : slice (encodeRecord wd ⟨out, dur, n3, n2, n1, n0⟩) wd.stateW wd.stateW
      = slice (encodeRecord wd ⟨out, dur, n3, n2, n1, n0⟩) (wd.stateW + 0) wd.stateW := rfl
  have ho : BitVec.ofNat 6 (slice out.toNat 0 6) = out := by
    rw [slice, Nat.pow_zero, Nat.div_one, Nat.mod_eq_of_lt out.isLt, BitVec.ofNat_toNat, BitVec.setWidth_eq]
  simp only [decodeRecord, e1, e5]
  simp only [e4, e3, e2]
  simp only [encodeRecord, slice_cat_high _ _ _ _ _ h0, slice_cat_high _ _ _ _ _ h1, slice_cat_high _ _ _ _ _ h2,
    slice_cat_high _ _ _ _ _ h3, slice_cat_high _ _ _ _ _ hd, slice_cat_low _ _ _ h0, slice_cat_low _ _ _ h1,
    slice_cat_low _ _ _ h2, slice_cat_low _ _ _ h3, slice_cat_low _ _ _ hd, ho]

/-- The word of a record whose fields fit has `REC_W` bits (30_encoding.md R70). -/
theorem encodeRecord_lt (wd : Widths) (r : Record) (h : r.fits wd = true) : encodeRecord wd r < 2 ^ recW wd := by
  obtain ⟨hd, h3, h2, h1, h0⟩ := (fits_iff wd r).1 h
  have e : recW wd = 6 + wd.durW + wd.stateW + wd.stateW + wd.stateW + wd.stateW := by rw [recW]; ring
  rw [e]
  exact cat_lt _ _ _ _ (cat_lt _ _ _ _ (cat_lt _ _ _ _ (cat_lt _ _ _ _ (cat_lt _ _ _ _ r.out.isLt hd) h3) h2) h1) h0

/-! ### Bytes -/

@[simp] theorem length_leBytes (n w : Nat) : (leBytes n w).length = n := by
  induction n generalizing w with
  | zero => rfl
  | succ n ih => simp [leBytes, ih]

/-- Reading back the low bytes of a number that fits them gives the number (20_memory.md R44). -/
theorem leNat_leBytes (n w : Nat) (h : w < 256 ^ n) : leNat (leBytes n w) = w := by
  induction n generalizing w with
  | zero => simp_all [leNat, leBytes]
  | succ n ih =>
    have hq : w / 256 < 256 ^ n := Nat.div_lt_of_lt_mul (by rwa [Nat.pow_succ, Nat.mul_comm] at h)
    simp only [leBytes, leNat, ih _ hq, BitVec.toNat_ofNat]
    omega

theorem recW_le_bytes (wd : Widths) : 2 ^ recW wd ≤ 256 ^ recBytes wd := by
  rw [show (256 : Nat) = 2 ^ 8 from rfl, ← Nat.pow_mul]
  exact Nat.pow_le_pow_right (by decide) (by rw [recBytes]; omega)

/-- A record image is never one byte, so it is told from a control vector by its length. -/
theorem recBytes_ne_one (wd : Widths) (h : 1 ≤ wd.stateW) : recBytes wd ≠ 1 := by rw [recBytes, recW]; omega

end Sys2Proof
end

