-- ==== Sys2Proof/Laws/State.lean ====
section
/-! SUPPORT. One lemma per field per state update, each true by unfolding. -/

namespace Sys2Proof.Machine

variable (s : State) (n : Nat) (e : Event)

@[simp] theorem enter_cfg : (enter n s).cfg = s.cfg := rfl
@[simp] theorem enter_build : (enter n s).build = s.build := rfl
@[simp] theorem enter_S : (enter n s).S = n := rfl
@[simp] theorem enter_CNT : (enter n s).CNT = 0 := rfl
@[simp] theorem enter_ins : (enter n s).ins = s.ins := rfl
@[simp] theorem enter_now : (enter n s).now = s.now := rfl
@[simp] theorem enter_trace : (enter n s).trace = s.trace := rfl

@[simp] theorem countUnit_cfg : (countUnit s).cfg = s.cfg := rfl
@[simp] theorem countUnit_build : (countUnit s).build = s.build := rfl
@[simp] theorem countUnit_S : (countUnit s).S = s.S := rfl
@[simp] theorem countUnit_CNT : (countUnit s).CNT = (s.CNT + 1) % 2 ^ s.cfg.durW := rfl
@[simp] theorem countUnit_ins : (countUnit s).ins = s.ins := rfl
@[simp] theorem countUnit_now : (countUnit s).now = s.now := rfl
@[simp] theorem countUnit_trace : (countUnit s).trace = s.trace := rfl

@[simp] theorem endCycle_cfg : (endCycle s).cfg = s.cfg := rfl
@[simp] theorem endCycle_build : (endCycle s).build = s.build := rfl
@[simp] theorem endCycle_S : (endCycle s).S = s.S := rfl
@[simp] theorem endCycle_CNT : (endCycle s).CNT = s.CNT := rfl
@[simp] theorem endCycle_ins : (endCycle s).ins = s.ins.tail := rfl
@[simp] theorem endCycle_now : (endCycle s).now = s.now + 1 := rfl
@[simp] theorem endCycle_trace : (endCycle s).trace = s.trace := rfl

@[simp] theorem record_cfg : (record e s).cfg = s.cfg := rfl
@[simp] theorem record_build : (record e s).build = s.build := rfl
@[simp] theorem record_S : (record e s).S = s.S := rfl
@[simp] theorem record_CNT : (record e s).CNT = s.CNT := rfl
@[simp] theorem record_ins : (record e s).ins = s.ins := rfl
@[simp] theorem record_now : (record e s).now = s.now := rfl
@[simp] theorem record_trace : (record e s).trace = s.trace ++ [e] := rfl

@[simp] theorem start_cfg (c : Config) (b : Build) (l : List Inputs) : (State.start c b l).cfg = c := rfl
@[simp] theorem start_build (c : Config) (b : Build) (l : List Inputs) : (State.start c b l).build = b := rfl
@[simp] theorem start_S (c : Config) (b : Build) (l : List Inputs) : (State.start c b l).S = c.start := rfl
@[simp] theorem start_CNT (c : Config) (b : Build) (l : List Inputs) : (State.start c b l).CNT = 0 := rfl
@[simp] theorem start_ins (c : Config) (b : Build) (l : List Inputs) : (State.start c b l).ins = l := rfl
@[simp] theorem start_now (c : Config) (b : Build) (l : List Inputs) : (State.start c b l).now = 0 := rfl
@[simp] theorem start_trace (c : Config) (b : Build) (l : List Inputs) : (State.start c b l).trace = [] := rfl

@[simp] theorem mapNext_next (f : State → State) : mapNext f (.next s) = .next (f s) := rfl
@[simp] theorem mapNext_fault (f : State → State) (r : Fault) : mapNext f (.fault r) = .fault r := rfl
@[simp] theorem mapNext_refused (f : State → State) (r : Refusal) : mapNext f (.refused r) = .refused r := rfl

/-- The current record depends on the configuration and `S` alone (41_engine_operations.md R131, R134). -/
theorem current_congr {s t : State} (hc : s.cfg = t.cfg) (hS : s.S = t.S) : current s = current t := by
  simp [current, hc, hS]

/-- The inputs of the current cycle depend on the queue and the cycle number alone. -/
theorem inputs_congr {s t : State} (hi : s.ins = t.ins) (hn : s.now = t.now) : inputs s = inputs t := by
  simp [inputs, hi, hn]

theorem inputs_cons {s : State} {i : Inputs} {rest : List Inputs} (h : s.ins = i :: rest) : inputs s = i := by
  simp [inputs, h]

end Sys2Proof.Machine
end

