-- ==== Sys2Proof/Laws/Ops.lean ====
section
/-! SUPPORT. What each shared operation and each meaning can do, said once. -/

namespace Sys2Proof.Machine

/-- The control vector that decodes by priority (41_engine_operations.md R136). -/
theorem decodeCtrl_ctrlOf (rst exp tick : Bool) : decodeCtrl (ctrlOf rst exp tick) =
    if rst then .reset else if exp then .advance else if tick then .count else .idle := by
  cases rst <;> cases exp <;> cases tick <;> rfl

theorem ctrlOf_inj {a b c a' b' c' : Bool} (h : ctrlOf a b c = ctrlOf a' b' c') : a = a' ∧ b = b' ∧ c = c' := by
  revert a b c a' b' c'; decide

/-- A step over a record whose ports work: the three events in order, then the selected state (40 R100). -/
theorem loopStep_done {rec : Record} {s : State} (h : PortsWork s) : loopStep rec s =
    (⟨s.cfg, s.build, nextOf rec (inputs s).sensor, 0, s.ins, s.now,
      s.trace ++ [.lightWrite rec.out, .wait rec.dur, .sensorRead (inputs s).sensor]⟩, none) := by
  simp [loopStep, h.1, h.2, enter, record]

/-- Everything a step over a record can do: it completes, or one of the two ports fails (60 R206). -/
theorem loopStep_cases (rec : Record) (s : State) :
    (PortsWork s ∧ loopStep rec s =
      (⟨s.cfg, s.build, nextOf rec (inputs s).sensor, 0, s.ins, s.now,
        s.trace ++ [.lightWrite rec.out, .wait rec.dur, .sensorRead (inputs s).sensor]⟩, none)) ∨
    (portFails s .light = true ∧ loopStep rec s = (s, some .light)) ∨
    (portFails s .light = false ∧ portFails s .sensor = true ∧ loopStep rec s =
      (⟨s.cfg, s.build, s.S, s.CNT, s.ins, s.now, s.trace ++ [.lightWrite rec.out, .wait rec.dur]⟩, some .sensor)) := by
  cases hl : portFails s .light
  · cases hs : portFails s .sensor
    · exact .inl ⟨⟨hl, hs⟩, loopStep_done ⟨hl, hs⟩⟩
    · exact .inr (.inr ⟨rfl, rfl, by simp [loopStep, hl, hs, record]⟩)
  · exact .inr (.inl ⟨rfl, by simp [loopStep, hl]⟩)

/-- Outside a hosted build the ports work (60 R206). -/
theorem portsWork_of_build {s : State} (h : s.build ≠ .hosted) : PortsWork s := by simp [PortsWork, portFails, h]

/-- A record's step where the ports work. -/
theorem runRecord_done {rec : Record} {s : State} (h : PortsWork s) : runRecord rec s =
    .next ⟨s.cfg, s.build, nextOf rec (inputs s).sensor, 0, s.ins, s.now,
      s.trace ++ [.lightWrite rec.out, .wait rec.dur, .sensorRead (inputs s).sensor]⟩ := by
  simp [runRecord, loopStep_done h]

/-- If a record's step answers a next state, the ports worked and this is it. -/
theorem runRecord_next {rec : Record} {s t : State} (h : runRecord rec s = .next t) : PortsWork s ∧
    t = ⟨s.cfg, s.build, nextOf rec (inputs s).sensor, 0, s.ins, s.now,
      s.trace ++ [.lightWrite rec.out, .wait rec.dur, .sensorRead (inputs s).sensor]⟩ := by
  rcases loopStep_cases rec s with ⟨hp, e⟩ | ⟨-, e⟩ | ⟨-, -, e⟩
  · exact ⟨hp, by simpa [runRecord, e, eq_comm] using h⟩
  · simp [runRecord, e] at h
  · simp [runRecord, e] at h

/-- A row that stands for a record runs that record. -/
theorem exec_record {i : Instr} {rec : Record} (h : instrRecord i = some rec) (s : State) :
    exec i s = runRecord rec s := by
  cases i <;> simp only [instrRecord, Option.some.injEq, reduceCtorEq] at h <;> subst h <;> rfl

/-- Everything an instruction that answers a next state can do. -/
theorem exec_next_cases {i : Instr} {s t : State} (h : exec i s = .next t) :
    (i = .reset ∧ t = enter s.cfg.start s) ∨
    (i = .advance ∧ ∃ rec, current s = some rec ∧ t = enter (nextOf rec (inputs s).sensor) s) ∨
    (i = .count ∧ t = countUnit s) ∨ (i = .idle ∧ t = s) ∨
    (∃ rec, instrRecord i = some rec ∧ PortsWork s ∧
      t = ⟨s.cfg, s.build, nextOf rec (inputs s).sensor, 0, s.ins, s.now,
        s.trace ++ [.lightWrite rec.out, .wait rec.dur, .sensorRead (inputs s).sensor]⟩) := by
  cases hi : instrRecord i with
  | some rec => exact .inr (.inr (.inr (.inr ⟨rec, rfl, runRecord_next (exec_record hi s ▸ h)⟩)))
  | none =>
    cases i <;> simp only [instrRecord, reduceCtorEq] at hi
    · exact .inl ⟨rfl, by simpa [exec, execReset, eq_comm] using h⟩
    · refine .inr (.inl ⟨rfl, ?_⟩)
      cases hc : current s with
      | none => simp [exec, execAdvance, nxt, hc] at h
      | some rec => exact ⟨rec, rfl, by simpa [exec, execAdvance, nxt, hc, eq_comm] using h⟩
    · exact .inr (.inr (.inl ⟨rfl, by simpa [exec, execCount, eq_comm] using h⟩))
    · exact .inr (.inr (.inr (.inl ⟨rfl, by simpa [exec, execIdle, eq_comm] using h⟩)))

end Sys2Proof.Machine
end

