-- ==== Sys2Proof/Laws/PerInstr.lean ====
section
/-! SUPPORT. Laws stated of every instruction, one lemma per constructor. Family EncodedLength: a CTRL row encodes to one
byte, a REC row to the bytes of a record image (30_encoding.md R70: all records have the same length). -/

namespace Sys2Proof.Laws.EncodedLength

def Statement (i : Instr) : Prop :=
  ∀ wd : Widths, (encode wd i).length = if instrRecord i = none then 1 else recBytes wd

theorem reset : Statement .reset := fun _ => rfl
theorem advance : Statement .advance := fun _ => rfl
theorem count : Statement .count := fun _ => rfl
theorem idle : Statement .idle := fun _ => rfl
theorem state (out : Pattern) (dur next3 next2 next1 next0 : Nat) :
    Statement (.state out dur next3 next2 next1 next0) := fun _ => length_leBytes _ _
theorem goN : Statement .goN := fun _ => length_leBytes _ _
theorem goNYield : Statement .goNYield := fun _ => length_leBytes _ _
theorem waitN : Statement .waitN := fun _ => length_leBytes _ _
theorem goE : Statement .goE := fun _ => length_leBytes _ _
theorem goEYield : Statement .goEYield := fun _ => length_leBytes _ _
theorem waitE : Statement .waitE := fun _ => length_leBytes _ _

end Sys2Proof.Laws.EncodedLength
end

