-- ==== Sys2Proof/Laws/Table.lean ====
section
/-! SUPPORT. The lemmas of validation, of the table read and of the reference table. -/

namespace Sys2Proof.Machine

/-! ### Validation (42_step_semantics.md R177) -/

theorem firstError_none (l : List (Option TableError)) : firstError l = none ↔ ∀ x ∈ l, x = none := by
  induction l with
  | nil => simp [firstError]
  | cons x xs ih => cases x <;> simp [firstError, ih]

theorem missingAt_none (s : Nat) (r : RawRecord) (k : Nat) : missingAt s r k = none ↔ ∃ t, r.next[k]? = some t := by
  unfold missingAt; cases r.next[k]? <;> simp

theorem badTargetAt_none (n s : Nat) (r : RawRecord) (k : Nat) :
    badTargetAt n s r k = none ↔ ∀ t, r.next[k]? = some t → t < n := by
  unfold badTargetAt; cases r.next[k]? <;> simp

theorem conflictOn_none (s : Nat) (r : RawRecord) (road : Road) :
    conflictOn s r road = none ↔ litCount r.out road ≤ 1 := by simp [conflictOn]

theorem durationError_none (w s : Nat) (r : RawRecord) : durationError w s r = none ↔ r.dur < 2 ^ w := by
  simp [durationError]

/-- A record passes its checks exactly if it has four entries below `NSTATES`, lights at most one light per road and has
a duration that fits. -/
theorem recordError_none (n w s : Nat) (r : RawRecord) : recordError n w s r = none ↔
    (∀ k < 4, ∃ t, r.next[k]? = some t ∧ t < n) ∧ litCount r.out .north ≤ 1 ∧ litCount r.out .east ≤ 1
      ∧ r.dur < 2 ^ w := by
  simp only [recordError, firstError_none, recordChecks, List.mem_cons, List.not_mem_nil, or_false, forall_eq_or_imp,
    forall_eq, missingAt_none, badTargetAt_none, conflictOn_none, durationError_none]
  constructor
  · rintro ⟨⟨a, ha⟩, ⟨b, hb⟩, ⟨c, hc⟩, ⟨d, hd⟩, ta, tb, tc, td, rest⟩
    refine ⟨fun k hk => ?_, rest⟩
    match k, hk with
    | 0, _ => exact ⟨a, ha, ta a ha⟩
    | 1, _ => exact ⟨b, hb, tb b hb⟩
    | 2, _ => exact ⟨c, hc, tc c hc⟩
    | 3, _ => exact ⟨d, hd, td d hd⟩
  · rintro ⟨h, rest⟩
    obtain ⟨a, ha, ta⟩ := h 0 (by decide)
    obtain ⟨b, hb, tb⟩ := h 1 (by decide)
    obtain ⟨c, hc, tc⟩ := h 2 (by decide)
    obtain ⟨d, hd, td⟩ := h 3 (by decide)
    refine ⟨⟨a, ha⟩, ⟨b, hb⟩, ⟨c, hc⟩, ⟨d, hd⟩, ?_, ?_, ?_, ?_, rest⟩ <;> intro t ht <;> simp_all

theorem recordsError_none (n w s : Nat) (raw : List RawRecord) : recordsError n w s raw = none ↔
    ∀ k r, raw[k]? = some r → recordError n w (s + k) r = none := by
  induction raw generalizing s with
  | nil => simp [recordsError]
  | cons r rest ih =>
    cases h : recordError n w s r with
    | some e =>
      simp only [recordsError, h, reduceCtorEq, false_iff, not_forall]
      exact ⟨0, r, rfl, by simp [h]⟩
    | none =>
      simp only [recordsError, h, ih]
      constructor
      · intro hk k
        cases k with
        | zero => intro q hq; simp_all
        | succ k => intro q hq; have := hk k q (by simpa using hq); rwa [Nat.add_right_comm, Nat.add_assoc] at this
      · intro hk k q hq
        have := hk (k + 1) q (by simpa using hq)
        rwa [← Nat.add_assoc, Nat.add_right_comm] at this

theorem validate_none (n w st : Nat) (raw : List RawRecord) : validate n w st raw = none ↔
    1 ≤ n ∧ raw.length = n ∧ st < n ∧ ∀ k r, raw[k]? = some r → recordError n w k r = none := by
  unfold validate
  split
  · rename_i h
    simp only [reduceCtorEq, false_iff]
    rintro ⟨h1, h2, -⟩
    omega
  · rename_i h
    split
    · rename_i h'
      simp only [reduceCtorEq, false_iff]
      rintro ⟨-, -, h3, -⟩
      omega
    · rename_i h'
      simp only [recordsError_none, Nat.zero_add]
      constructor
      · exact fun hk => ⟨by omega, by omega, by omega, hk⟩
      · exact fun hk => hk.2.2.2

/-! ### What every configuration has (42_step_semantics.md R178) -/

/-- A record with four entries passes its checks exactly if its targets are in range, it lights at most one light per road
and its duration fits. -/
theorem recordError_rawOf (n w k : Nat) (rec : Record) : recordError n w k (rawOf rec) = none ↔
    rec.targetsIn n = true ∧ patternLegal rec.out = true ∧ rec.dur < 2 ^ w := by
  refine ⟨fun h => ?_, fun h => recordError_of_legal h.1 h.2.1 h.2.2⟩
  obtain ⟨ht, hn, he, hd⟩ := (recordError_none ..).1 h
  have h0 := ht 0 (by decide)
  have h1 := ht 1 (by decide)
  have h2 := ht 2 (by decide)
  have h3 := ht 3 (by decide)
  simp [rawOf] at h0 h1 h2 h3
  simp_all [rawOf, Record.targetsIn, patternLegal]

/-- The table has exactly `NSTATES` records (20_memory.md R41). -/
theorem length_tbl (c : Config) : c.tbl.length = c.nstates := by
  simpa using ((validate_none ..).1 c.valid).2.1

/-- `START` is a state. -/
theorem start_lt (c : Config) : c.start < c.nstates := ((validate_none ..).1 c.valid).2.2.1

theorem readRecord_none_of_le {c : Config} {i : Nat} (h : c.nstates ≤ i) : readRecord c i = none :=
  List.getElem?_eq_none (length_tbl c ▸ h)

theorem lt_of_readRecord {c : Config} {i : Nat} {rec : Record} (h : readRecord c i = some rec) : i < c.nstates :=
  length_tbl c ▸ (List.getElem?_eq_some_iff.1 h).1

/-- Every location has a record (40_transition_table.md R101). -/
theorem readRecord_of_lt {c : Config} {i : Nat} (hi : i < c.nstates) : ∃ rec, readRecord c i = some rec :=
  ⟨_, List.getElem?_eq_getElem (length_tbl c ▸ hi)⟩

/-- What holds of every record: targets in range, at most one light per road, a duration of `DUR_W` bits. -/
theorem record_valid {c : Config} {i : Nat} {rec : Record} (hr : readRecord c i = some rec) :
    rec.targetsIn c.nstates = true ∧ patternLegal rec.out = true ∧ rec.dur < 2 ^ c.durW := by
  have hv : ∀ k r, (c.tbl.map rawOf)[k]? = some r → recordError c.nstates c.durW k r = none :=
    ((validate_none ..).1 c.valid).2.2.2
  have hr' : c.tbl[i]? = some rec := hr
  exact (recordError_rawOf ..).1 (hv i (rawOf rec) (by simp [hr']))

theorem nextOf_lt {n : Nat} {rec : Record} (h : rec.targetsIn n = true) (r : Reading) : nextOf rec r < n := by
  simp only [Record.targetsIn, Bool.and_eq_true, decide_eq_true_eq, and_assoc] at h
  unfold nextOf
  split <;> simp_all

/-- The fields of every record fit the word (30_encoding.md R80). -/
theorem record_fits {c : Config} {i : Nat} {rec : Record} (hr : readRecord c i = some rec) :
    rec.fits c.widths = true := by
  obtain ⟨ht, -, hd⟩ := record_valid hr
  simp only [Record.targetsIn, Bool.and_eq_true, decide_eq_true_eq, and_assoc] at ht
  have hp := le_two_pow_stateW c.nstates
  refine (fits_iff _ _).2 ⟨hd, ?_, ?_, ?_, ?_⟩ <;> simp only [Params.widths] <;> omega

/-- A word read at a location decodes to the record there. -/
theorem decodeRecord_readWord {c : Config} {i w : Nat} (h : readWord c i = some w) :
    readRecord c i = some (decodeRecord c.widths w) := by
  obtain ⟨rec, hr, rfl⟩ := Option.map_eq_some_iff.1 h
  rw [hr, decodeRecord_encodeRecord _ _ (record_fits hr)]

/-- The table of every configuration is in canonical form, and so it is after every step and every placing of a record,
which all give a configuration (20_memory.md R41). -/
theorem tableWf_config (c : Config) : tableWf c = true := by
  simp only [tableWf, length_tbl, decide_true, Bool.true_and, List.all_eq_true]
  intro rec hm
  obtain ⟨i, hi⟩ := List.mem_iff_getElem?.1 hm
  exact record_fits hi

/-- Construction of a table that `validate` refuses gives the error (60_exceptions.md R204). -/
theorem construct_error {p : Params} {raw : List RawRecord} {e : TableError}
    (h : validate p.nstates p.durW p.start raw = some e) : construct p raw = .error e := by
  unfold construct
  split <;> simp_all

/-- Construction of a table that `validate` accepts gives the block with its records (42_step_semantics.md R178). -/
theorem construct_ok {p : Params} {raw : List RawRecord} (h : validate p.nstates p.durW p.start raw = none) :
    construct p raw = .ok ⟨p, raw.map recordOf, validate_rawOf_recordOf h⟩ := by
  unfold construct
  split <;> simp_all

/-- The four records of the reference design (40_transition_table.md R108). -/
theorem readRecord_refConfig (p : RefParams) :
    readRecord (refConfig p) 0 = some (goNRecord p.bothPolicy p.durGo.toNat) ∧
    readRecord (refConfig p) 1 = some (waitNRecord p.durWait.toNat) ∧
    readRecord (refConfig p) 2 = some (goERecord p.bothPolicy p.durGo.toNat) ∧
    readRecord (refConfig p) 3 = some (waitERecord p.durWait.toNat) := ⟨rfl, rfl, rfl, rfl⟩

/-- Everything placing a record can do: the parameters stay, and either the table has the record or it is the old one,
because `validate` refuses the other. -/
theorem withRecord_cases (i : Nat) (rec : Record) (c : Config) : (withRecord i rec c).toParams = c.toParams ∧
    ((withRecord i rec c).tbl = c.tbl.set i rec ∨ ((withRecord i rec c).tbl = c.tbl ∧
      ∃ e, validate c.nstates c.durW c.start ((c.tbl.set i rec).map rawOf) = some e)) := by
  unfold withRecord
  split
  · exact ⟨rfl, .inl rfl⟩
  · rename_i h
    exact ⟨rfl, .inr ⟨rfl, Option.ne_none_iff_exists'.1 h⟩⟩

end Sys2Proof.Machine
end

