-- ==== Sys2Proof/Laws/Step.lean ====
section
/-! SUPPORT. What a step can do, said once for the block and once for the control loop, and runs of steps. -/

namespace Sys2Proof.Machine

/-- The fetch of the block where the current record is defined. -/
theorem fetch_block {s : State} (hb : s.build = .block) {rec : Record}
    (hc : current s = some rec) :
    fetch s = .instr (decodeCtrl (ctrlOf (inputs s).rst (timeUp rec s.CNT) (inputs s).tick)) := by
  simp [fetch, hb, fetchCtrl, ctrlVector, expired, hc]

/-- The fetch of the block where the current record is undefined. -/
theorem fetch_block_undefined {s : State} (hb : s.build = .block)
    (hc : current s = none) : fetch s =
      if (inputs s).rst then .instr .reset else .stop (.undefinedTableRead s.S) := by
  cases hr : (inputs s).rst
  · simp [fetch, hb, fetchCtrl, ctrlVector, expired, hc, hr]
  · simp [fetch, hb, fetchCtrl, ctrlVector, expired, hc, hr, decodeCtrl_ctrlOf]

/-- One cycle of the block where the current record is defined: the four-way choice of 41_engine_operations.md R136. -/
theorem step_block {s : State} (hb : s.build = .block) {rec : Record}
    (hc : current s = some rec) : step s = .next (endCycle (
      if (inputs s).rst then enter s.cfg.start s
      else if timeUp rec s.CNT then enter (nextOf rec (inputs s).sensor) s
      else if (inputs s).tick then countUnit s else s)) := by
  rw [step, fetch_block hb hc, decodeCtrl_ctrlOf]
  cases (inputs s).rst <;> cases timeUp rec s.CNT <;> cases (inputs s).tick <;>
    simp [exec, execReset, execAdvance, execCount, execIdle, nxt, hc]

/-- The row a record word decodes to stands for the word's record (30_encoding.md R86). -/
theorem instrRecord_decodeRec (wd : Widths) (w : Nat) : instrRecord (decodeRec wd w) = some (decodeRecord wd w) := by
  unfold decodeRec
  split
  · rename_i i hi
    split at hi
    · rename_i hwd
      subst hwd
      unfold imageRow at hi
      split_ifs at hi <;> cases hi <;> subst_vars <;> rfl
    · cases hi
  · rfl

/-- One iteration of the control loop where the current record is defined. -/
theorem step_loop {s : State} (hb : s.build ≠ .block) {rec : Record}
    (hc : current s = some rec) : step s = mapNext endCycle (runRecord rec s) := by
  have hw : readWord s.cfg s.S = some (encodeRecord s.cfg.widths rec) := congrArg (Option.map _) hc
  have hf : fetch s = .instr (decodeRec s.cfg.widths (encodeRecord s.cfg.widths rec)) := by
    cases h : s.build <;> simp_all [fetch, fetchRecord]
  have hi := instrRecord_decodeRec s.cfg.widths (encodeRecord s.cfg.widths rec)
  rw [decodeRecord_encodeRecord _ _ (record_fits hc)] at hi
  simp only [step, hf, exec_record hi]

/-- Everything a step that answers a next state can do. -/
theorem step_next_cases {s t : State} (h : step s = .next t) :
    (s.build = .block ∧ (inputs s).rst = true ∧ t = endCycle (enter s.cfg.start s)) ∨
     (s.build = .block ∧ (inputs s).rst = false ∧ ∃ rec, current s = some rec ∧
       ((timeUp rec s.CNT = true ∧ t = endCycle (enter (nextOf rec (inputs s).sensor) s)) ∨
        (timeUp rec s.CNT = false ∧ (inputs s).tick = true ∧ t = endCycle (countUnit s)) ∨
        (timeUp rec s.CNT = false ∧ (inputs s).tick = false ∧ t = endCycle s))) ∨
     (s.build ≠ .block ∧ ∃ rec, current s = some rec ∧ PortsWork s ∧ t =
       ⟨s.cfg, s.build, nextOf rec (inputs s).sensor, 0, s.ins.tail, s.now + 1,
        s.trace ++ [.lightWrite rec.out, .wait rec.dur, .sensorRead (inputs s).sensor]⟩) := by
  by_cases hb : s.build = .block
  · cases hc : current s with
    | none =>
      rw [step, fetch_block_undefined hb hc] at h
      cases hr : (inputs s).rst
      · simp [hr] at h
      · refine .inl ⟨hb, rfl, ?_⟩
        simpa [hr, exec, execReset, eq_comm] using h
    | some rec =>
      rw [step_block hb hc] at h
      cases hr : (inputs s).rst
      · refine .inr (.inl ⟨hb, rfl, rec, rfl, ?_⟩)
        cases hx : timeUp rec s.CNT <;> cases hk : (inputs s).tick <;> simp_all
      · exact .inl ⟨hb, rfl, by simpa [hr, eq_comm] using h⟩
  · refine .inr (.inr ⟨hb, ?_⟩)
    cases hc : current s with
    | none =>
      have hw : readWord s.cfg s.S = none := congrArg (Option.map _) hc
      cases hb' : s.build <;> simp_all [step, fetch, fetchRecord]
    | some rec =>
      rw [step_loop hb hc] at h
      cases hr : runRecord rec s with
      | next u =>
        obtain ⟨hp, rfl⟩ := runRecord_next hr
        exact ⟨rec, rfl, hp, by simpa [hr, endCycle, eq_comm] using h⟩
      | fault _ => simp [hr] at h
      | refused _ => simp [hr] at h

/-- No step writes the configuration, and so none the table (20_memory.md R43). -/
theorem step_cfg {s t : State} (h : step s = .next t) : t.cfg = s.cfg := by
  rcases step_next_cases h with ⟨-, -, rfl⟩ | ⟨-, -, rec, -, ⟨-, rfl⟩ | ⟨-, -, rfl⟩ | ⟨-, -, rfl⟩⟩ | ⟨-, rec, -, -, rfl⟩ <;> rfl

/-- A step keeps the form that runs. -/
theorem step_build {s t : State} (h : step s = .next t) : t.build = s.build := by
  rcases step_next_cases h with ⟨-, -, rfl⟩ | ⟨-, -, rec, -, ⟨-, rfl⟩ | ⟨-, -, rfl⟩ | ⟨-, -, rfl⟩⟩ | ⟨-, rec, -, -, rfl⟩ <;> rfl

/-- The invariant from the record of the current state. -/
theorem runInv_of_current {s : State} {rec : Record} (hc : current s = some rec)
    (he : s.CNT ≤ rec.dur) (hl : s.build ≠ .block → s.CNT = 0) : RunInv s where
  cursor := lt_of_readRecord hc
  elapsed := fun r hr => by rw [hc] at hr; cases hr; exact he
  noWrap := he.trans_lt (record_valid hc).2.2
  idleLoop := hl

/-! ### Runs -/

theorem core_run_succ (M : Host.Core) (n : Nat) {s t : M.State} (h : M.step s = .next t) :
    M.run (n + 1) s = M.run n t := by simp [Host.Core.run, h]

theorem core_run_succ_next (M : Host.Core) (n : Nat) {s u : M.State} (h : M.run (n + 1) s = .next u) :
    ∃ t, M.step s = .next t ∧ M.run n t = .next u := by
  cases hs : M.step s with
  | next t => exact ⟨t, rfl, by simpa [Host.Core.run, hs] using h⟩
  | fault _ => simp [Host.Core.run, hs] at h
  | refused _ => simp [Host.Core.run, hs] at h

theorem run_zero (s : State) : Host.Core.run core 0 s = .next s := rfl

/-- A run whose first step answers a next state goes on from it. -/
theorem run_succ_of_step {s t : State} (n : Nat) (h : step s = .next t) :
    Host.Core.run core (n + 1) s = Host.Core.run core n t := core_run_succ core n h

/-- A run that answers a next state took a first step that did. -/
theorem run_succ_next {s u : State} {n : Nat} (h : Host.Core.run core (n + 1) s = .next u) :
    ∃ t, step s = .next t ∧ Host.Core.run core n t = .next u := core_run_succ_next core n h

end Sys2Proof.Machine
end

