-- ==== Sys2Proof/Tests/Slice0.lean ====
section
/-! SUPPORT. Tests: expected results are those of spec/95_test_vectors.md and of the worked examples of the rules, named
at each theorem; and a witness for the hypotheses of every statement of Certificates/Slice0/Obligations.lean. -/

namespace Sys2Proof.Tests

open Sys2Proof.Machine

/-- One cycle's inputs, no injected failure. -/
def cyc (rst tick : Bool) (sensor : Reading) : Inputs := ⟨rst, tick, sensor, none⟩

/-- The reference block (`HOLD`) in a state, with queued inputs. -/
def blk (S CNT : Nat) (ins : List Inputs) : State := ⟨refConfig refParams, .block, S, CNT, ins, 0, []⟩

/-- The reference table under `YIELD`. -/
def yieldParams : RefParams := ⟨.yield, 3000, 500, 10000⟩

/-- The control loop over the reference table, with queued readings. -/
def loopAt (b : Build) (S : Nat) (ins : List Inputs) : State := ⟨refConfig refParams, b, S, 0, ins, 0, []⟩

/-- `(S, CNT)` of an outcome. -/
def pairOf (o : Host.Outcome State Fault Refusal) : Option (Nat × Nat) :=
  match o with
  | .next t => some (t.S, t.CNT)
  | .fault _ => none
  | .refused _ => none

/-- The trace of an outcome. -/
def traceOf (o : Host.Outcome State Fault Refusal) : List Event :=
  match o with
  | .next t => t.trace
  | .fault _ => []
  | .refused _ => []

/-- The fault of an outcome. -/
def faultOf (o : Host.Outcome State Fault Refusal) : Option Fault :=
  match o with
  | .next _ => none
  | .fault f => some f
  | .refused _ => none

/-- The refusal of an outcome. -/
def refusalOf (o : Host.Outcome State Fault Refusal) : Option Refusal :=
  match o with
  | .next _ => none
  | .fault _ => none
  | .refused r => some r

/-! ### Well-formedness: an ill-formed term for each check -/

theorem smoke_wellFormed : Instr.wellFormed 4 16 (.state 0b010010 13398 1 3 2 0) = true ∧
    Instr.wellFormed 4 16 .goE = true ∧ Instr.wellFormed 4 16 .count = true := by decide
theorem smoke_duration_too_wide : Instr.wellFormed 4 16 (.state 0 65536 0 0 0 0) = false := by decide
theorem smoke_next_too_wide : Instr.fits refWidths (.state 0 0 4 0 0 0) = false ∧
    Instr.fits refWidths (.state 0 0 0 4 0 0) = false ∧ Instr.fits refWidths (.state 0 0 0 0 4 0) = false ∧
    Instr.fits refWidths (.state 0 0 0 0 0 4) = false := by decide
theorem smoke_target_not_a_state : Instr.wellFormed 3 16 (.state 0 0 3 0 0 0) = false ∧
    Instr.wellFormed 3 16 (.state 0 0 0 3 0 0) = false ∧ Instr.wellFormed 3 16 (.state 0 0 0 0 3 0) = false ∧
    Instr.wellFormed 3 16 (.state 0 0 0 0 0 3) = false := by decide
theorem smoke_two_lights_north : Instr.wellFormed 4 16 (.state 0b000011 0 0 0 0 0) = false := by decide
theorem smoke_two_lights_east : Instr.wellFormed 4 16 (.state 0b110000 0 0 0 0 0) = false := by decide
theorem smoke_image_at_other_widths : Instr.wellFormed 6 16 .goN = false ∧ Instr.wellFormed 6 16 .goNYield = false ∧
    Instr.wellFormed 6 16 .waitN = false ∧ Instr.wellFormed 6 16 .goE = false ∧
    Instr.wellFormed 6 16 .goEYield = false ∧ Instr.wellFormed 6 16 .waitE = false := by decide

/-! ### Decoding: words written out from the encodings of the spec -/

/-- 30_encoding.md R78, V-ENC-5: all eight control vectors. -/
theorem test_decode_control : [0b000, 0b001, 0b010, 0b011, 0b100, 0b101, 0b110, 0b111].map (decodeTableWord 8) =
    [some .idle, some .count, some .advance, some .advance, some .reset, some .reset, some .reset, some .reset] := by
  decide
/-- 30_encoding.md R79: the rows of the reference images, bit by bit. -/
theorem test_decode_goN : decodeTableWord 32 0b100001000010111011100000000100 = some .goN := by decide
theorem test_decode_goNYield : decodeTableWord 32 0b100001000010111011100001000100 = some .goNYield := by decide
theorem test_decode_waitN : decodeTableWord 32 0b100010000000011111010010101010 = some .waitN := by decide
theorem test_decode_goE : decodeTableWord 32 0b001100000010111011100010111010 = some .goE := by decide
theorem test_decode_goEYield : decodeTableWord 32 0b001100000010111011100011111010 = some .goEYield := by decide
theorem test_decode_waitE : decodeTableWord 32 0b010100000000011111010000000000 = some .waitE := by decide
/-- V-ENC-2: arbitrary words. -/
theorem test_decode_state : decodeTableWord 32 0x12345678 = some (.state 0b010010 13398 1 3 2 0) ∧
    decodeTableWord 32 0x2A5A5A5A = some (.state 0b101010 23130 1 1 2 2) ∧
    decodeTableWord 32 0x3FFFFFFF = some (.state 0b111111 65535 3 3 3 3) ∧
    decodeTableWord 32 0 = some (.state 0 0 0 0 0 0) := by decide
/-- Bytes that are no instruction. -/
theorem test_decode_rejects : decodeBytes refWidths [0x08] = .error .ctrlHighBits ∧
    decodeBytes refWidths [0, 0, 0, 0x40] = .error .recordHighBits ∧
    decodeBytes refWidths [0, 0] = .error (.badLength 2) ∧ decodeBytes refWidths [] = .error (.badLength 0) := by
  refine ⟨rfl, rfl, rfl, rfl⟩
/-- Programs P3 and P4: records of 26 and of 34 bits. -/
theorem test_encode_other_widths : encodeRecord ⟨1, 16⟩ ⟨0b100001, 3, 1, 1, 1, 1⟩ = 0x210003F ∧
    encodeRecord ⟨3, 16⟩ ⟨0b001100, 3000, 3, 4, 3, 3⟩ = 0x0C0BB871B ∧
    decodeRecord ⟨3, 16⟩ 0x240064006 = ⟨0b100100, 100, 0, 0, 0, 6⟩ := by decide
/-- V-ENC-6: `STATE_W` and `REC_W` for `NSTATES` 1, 2, 3, 4, 5, 8, 9. -/
theorem test_widths : [1, 2, 3, 4, 5, 8, 9].map (fun n => (stateW n, recW ⟨stateW n, 16⟩)) =
    [(1, 26), (1, 26), (2, 30), (2, 30), (3, 34), (3, 34), (4, 38)] := by decide
/-- V-ENC-3: the image of the reference table, both policies. -/
theorem test_image : imageBytes (refConfig refParams) = [0x04, 0xB8, 0x0B, 0x21, 0xAA, 0xF4, 0x01, 0x22, 0xBA, 0xB8,
      0x0B, 0x0C, 0x00, 0xF4, 0x01, 0x14] ∧
    imageBytes (refConfig yieldParams) = [0x44, 0xB8, 0x0B, 0x21, 0xAA, 0xF4, 0x01, 0x22, 0xFA, 0xB8, 0x0B, 0x0C, 0x00,
      0xF4, 0x01, 0x14] := by decide
/-- V-ENC-7: legal and illegal patterns. -/
theorem test_patterns : [0b100001, 0b100100, 0b000000, 0b001001, 0b110000, 0b000011].map patternLegal =
    [true, true, true, true, false, false] := by decide

/-! ### One step after reset of each row's word (the host's fixed names) -/

theorem test_first_step_control : [0b100, 0b010, 0b001, 0b000].map (fun w => pairOf (step (State.reset.withFetchWord 8 w))) =
    [some (0, 0), some (0, 0), some (0, 1), some (0, 0)] := by decide
theorem test_first_step_records : [0x210BB804, 0x210BB844, 0x2201F4AA, 0x0C0BB8BA, 0x0C0BB8FA, 0x1401F400, 0x12345678].map
      (fun w => pairOf (step (State.reset.withFetchWord 32 w))) =
    [some (0, 0), some (0, 0), some (2, 0), some (2, 0), some (2, 0), some (0, 0), some (0, 0)] := by decide
theorem test_placed_control_vector : [0, 1, 2, 3, 4, 5, 6, 7].map (fun w => ctrlVector (State.reset.withFetchWord 8 w)) =
    [some 0, some 1, some 2, some 3, some 4, some 5, some 6, some 7] := by decide

/-! ### The four operations: V-OPS-1 to V-OPS-5 -/

/-- R137's worked example; V-OPS-2: a reset in the cycle of an ADVANCE takes no sample. -/
theorem test_reset : pairOf (step (blk 2 1234 [cyc true false 0])) = some (0, 0) ∧
    pairOf (step (blk 0 3000 [cyc true false 1])) = some (0, 0) := by decide
/-- V-OPS-5: RESET even where `TBL[S]` is undefined. -/
theorem test_reset_from_undefined : pairOf (step (blk 7 9 [cyc true true 3])) = some (0, 0) := by decide
/-- R138's worked examples, V-OPS-3: from goE all four readings. -/
theorem test_advance : [0, 1, 2, 3].map (fun r => pairOf (step (blk 0 3000 [cyc false true r]))) =
      [some (0, 0), some (1, 0), some (0, 0), some (0, 0)] ∧
    [0, 1, 2, 3].map (fun r => pairOf (step (blk 2 3000 [cyc false false r]))) =
      [some (2, 0), some (2, 0), some (3, 0), some (2, 0)] := by decide
/-- U6: a count above the duration advances. -/
theorem test_advance_beyond : pairOf (step (blk 0 3001 [cyc false false 1])) = some (1, 0) := by decide
/-- R139's worked example. -/
theorem test_count : pairOf (step (blk 3 499 [cyc false true 0])) = some (3, 500) ∧
    sample (blk 3 500 []) = some true ∧ sample (blk 3 499 []) = some false := by decide
/-- R140's worked example. -/
theorem test_idle : pairOf (step (blk 0 17 [cyc false false 3])) = some (0, 17) := by decide
/-- V-MUX-1. -/
theorem test_lights : [0, 1, 2, 3, 4].map (fun S => lights (blk S 0 [])) =
    [some 0x21, some 0x22, some 0x0C, some 0x14, none] := by decide

/-! ### The records: V-TBL-1, worked examples of R103 to R106 -/

theorem test_goN : [0, 1, 2, 3].map (fun r => pairOf (exec .goN (loopAt .loop 0 [cyc false false r]))) =
    [some (0, 0), some (1, 0), some (0, 0), some (0, 0)] := by decide
theorem test_goNYield : [0, 1, 2, 3].map (fun r => pairOf (exec .goNYield (loopAt .loop 0 [cyc false false r]))) =
    [some (0, 0), some (1, 0), some (0, 0), some (1, 0)] := by decide
theorem test_waitN : [0, 1, 2, 3].map (fun r => pairOf (exec .waitN (loopAt .loop 1 [cyc false false r]))) =
    [some (2, 0), some (2, 0), some (2, 0), some (2, 0)] := by decide
theorem test_goE : [0, 1, 2, 3].map (fun r => pairOf (exec .goE (loopAt .loop 2 [cyc false false r]))) =
    [some (2, 0), some (2, 0), some (3, 0), some (2, 0)] := by decide
theorem test_goEYield : [0, 1, 2, 3].map (fun r => pairOf (exec .goEYield (loopAt .loop 2 [cyc false false r]))) =
    [some (2, 0), some (2, 0), some (3, 0), some (3, 0)] := by decide
theorem test_waitE : [0, 1, 2, 3].map (fun r => pairOf (exec .waitE (loopAt .loop 3 [cyc false false r]))) =
    [some (0, 0), some (0, 0), some (0, 0), some (0, 0)] := by decide
theorem test_state : [0, 1, 2, 3].map (fun r => pairOf (exec (.state 0b100100 7 3 2 1 0) (loopAt .loop 0 [cyc false false r]))) =
      [some (0, 0), some (1, 0), some (2, 0), some (3, 0)] ∧
    traceOf (exec (.state 0b100100 7 3 2 1 0) (loopAt .loop 0 [cyc false false 2])) =
      [.lightWrite 0b100100, .wait 7, .sensorRead 2] := by decide
/-- R206: a failing hosted port. -/
theorem test_hosted_failure : faultOf (step (loopAt .hosted 0 [⟨false, false, 0, some .sensor⟩])) =
    some (.portFailure 0 .sensor) := by decide
/-- R42: a table read at or above `NSTATES` is refused. -/
theorem test_undefined_read : refusalOf (step (blk 4 0 [cyc false false 0])) = some (.undefinedTableRead 4) := by decide
/-- R81, R205: a word with which the table would be illegal is in no block. -/
theorem test_invalid_table : (State.reset.withFetchWord 32 0x3FFFFFFF).cfg = State.reset.cfg := by decide

/-! ### Host functions, validation, text -/

/-- V-TBL-2. -/
theorem test_nextState : nextState (refConfig refParams) 0 1 = some (1, 0b100010, 500) ∧
    nextState (refConfig yieldParams) 0 3 = some (1, 0b100010, 500) ∧
    nextState (refConfig refParams) 2 1 = some (2, 0b001100, 3000) ∧
    nextState (refConfig refParams) 3 3 = some (0, 0b100001, 3000) := by decide
/-- V-VAL-1 to V-VAL-16, one change of the reference table each. -/
theorem test_validate :
    let t := refTable refParams
    let at' (k : Nat) (r : RawRecord) := t.set k r
    let goN : RawRecord := ⟨0b100001, 3000, [0, 1, 0, 0]⟩
    let waitN : RawRecord := ⟨0b100010, 500, [2, 2, 2, 2]⟩
    validate 4 16 0 t = none ∧
    validate 4 16 0 (at' 1 { waitN with next := [2, 2, 2] }) = some (.missingTransition 1 3) ∧
    validate 4 16 0 (at' 0 { goN with next := [] }) = some (.missingTransition 0 0) ∧
    validate 4 16 0 (at' 2 ⟨0b011100, 3000, [2, 2, 3, 2]⟩) = some (.outputConflict 2 .east) ∧
    validate 4 16 0 (at' 3 ⟨0b000100, 500, [0, 0, 0, 0]⟩) = none ∧
    validate 4 16 0 (at' 0 { goN with out := 0b100011 }) = some (.outputConflict 0 .north) ∧
    validate 4 16 0 (at' 0 { goN with out := 0b111111 }) = some (.outputConflict 0 .north) ∧
    validate 3 16 0 (t.take 3) = some (.badTarget 2 2 3) ∧
    validate 4 16 4 t = some (.badStart 4) ∧
    validate 4 16 0 (t.take 3) = some (.badTableSize 3 4) ∧
    validate 4 16 0 (at' 0 { goN with dur := 65536 }) = some (.durationRange 0 65536) ∧
    validate 4 16 0 (at' 0 { goN with dur := 65535 }) = none ∧
    validate 4 16 0 (at' 0 { goN with dur := 0 }) = none ∧
    validate 4 16 0 ((at' 0 { goN with out := 0b100011 }).set 1 { waitN with next := [2, 2, 2] }) =
      some (.outputConflict 0 .north) ∧
    validate 4 16 0 (at' 0 { goN with out := 0b100011, next := [0, 1, 0] }) = some (.missingTransition 0 3) ∧
    validate 1 16 0 [⟨0b100100, 7, [0, 0, 0, 0]⟩] = none := by decide
/-- P6: construction of an invalid table gives no engine, only the error, code 1. -/
theorem test_construct_refuses :
    construct (refNumbers refParams) ((refTable refParams).set 1 ⟨0b100010, 500, [2, 2, 2]⟩) = .error (.missingTransition 1 3) ∧
    errorCode (.missingTransition 1 3) = 1 := by decide
/-- The words of the listing of 30_encoding.md R84. -/
theorem test_text : parseTable ["START goN".toList,
      "goN:   OUT 100001 DUR 3000 NEXT goN   waitN goN   goN".toList,
      "waitN: OUT 100010 DUR 500  NEXT goE   goE   goE   goE".toList,
      "goE:   OUT 001100 DUR 3000 NEXT goE   goE   waitE goE".toList,
      "waitE: OUT 010100 DUR 500  NEXT goN   goN   goN   goN".toList] = .ok (refTable refParams, 0) := rfl
/-- 70_reset_and_hazards.md R247: 30 s, 5 s and 70 s. -/
theorem test_real_time : unitsUs (refNumbers refParams) 3000 = 30000000 ∧
    unitsUs (refNumbers refParams) 500 = 5000000 ∧ unitsUs (refNumbers refParams) 7000 = 70000000 := by decide
/-- P1: time waited and the lagging light port after a wait step. -/
theorem test_light_port : lightPort (runNSteps 1 (loopAt .loop 3 [cyc false false 0])).engine = some 0b010100 ∧
    waited (runNSteps 1 (loopAt .loop 3 [cyc false false 0])).engine = 500 ∧
    lights (runNSteps 1 (loopAt .loop 3 [cyc false false 0])).engine = some 0b100001 := by decide
/-- V-ENC-5 over the rows of the opcode table: match and mask of R78 pick exactly the decoded operation. -/
theorem test_control_rows_disjoint : ∀ c : CtrlWord,
    ((c &&& 0b100 = 0b100) ↔ decodeCtrl c = .reset) ∧ ((c &&& 0b110 = 0b010) ↔ decodeCtrl c = .advance) ∧
    ((c &&& 0b111 = 0b001) ↔ decodeCtrl c = .count) ∧ ((c &&& 0b111 = 0b000) ↔ decodeCtrl c = .idle) := by decide

/-! ### Witnesses: states and operands that meet the hypotheses of each statement together -/

theorem ref_reference : Reference (refConfig refParams) := ⟨refParams, rfl⟩

theorem blk_current : current (blk 0 0 []) = some (goNRecord .hold 3000) := by decide

/-- The block in goN with the given count and inputs meets the invariant. -/
theorem blk_inv (CNT : Nat) (ins : List Inputs) (h : CNT ≤ 3000) : RunInv (blk 0 CNT ins) :=
  runInv_of_current (rec := goNRecord .hold 3000) ((current_congr (t := blk 0 0 []) rfl rfl).trans blk_current) h (fun hb => absurd rfl hb)

/-- The loop in goN meets the invariant. -/
theorem loopAt_inv (b : Build) (ins : List Inputs) : RunInv (loopAt b 0 ins) :=
  runInv_of_current (rec := goNRecord .hold 3000) ((current_congr (t := blk 0 0 []) rfl rfl).trans blk_current) (Nat.zero_le _) (fun _ => rfl)

theorem witness_DecodeOfEncodeIsTheInstruction : 1 ≤ refWidths.stateW ∧
    Instr.fits refWidths (.state 0b111111 65535 3 3 3 3) = true ∧ Instr.fits refWidths .goN = true ∧
    Instr.fits ⟨3, 16⟩ (.state 0 0 7 0 0 0) = true := by decide
theorem witness_EveryRecordWordRoundTrips : 0x3FFFFFFF < 2 ^ recW refWidths := by decide
theorem witness_SourceLineParsesBack : ['g', 'o'] ≠ ([] : Token) := by decide
theorem witness_ResetLoadsStartAndClearsCount : (blk 7 9 [cyc true true 3]).build = .block ∧ (inputs (blk 7 9 [cyc true true 3])).rst = true ∧
    readRecord (refConfig refParams) (refConfig refParams).start = some (goNRecord .hold 3000) := by decide
theorem witness_ControlVectorDecodesByItsTable : current (blk 3 500 []) = some (waitERecord 500) := by decide
theorem witness_AdvanceEntersTheSampledState : current (blk 0 3000 [cyc false true 1]) = some (goNRecord .hold 3000) ∧
    (blk 0 3000 [cyc false true 1]).build = .block ∧
    (inputs (blk 0 3000 [cyc false true 1])).rst = false ∧
    (goNRecord .hold 3000).dur ≤ (blk 0 3000 [cyc false true 1]).CNT ∧
    RunInv (blk 0 3000 [cyc false true 1]) ∧ ∃ t, exec .count (blk 0 3000 [cyc false true 1]) = .next t :=
  ⟨rfl, rfl, rfl, by decide, blk_inv _ _ (by decide), _, rfl⟩
theorem witness_CountAddsOneUnit : (blk 1 65534 []).CNT + 1 < 2 ^ (blk 1 65534 []).cfg.durW ∧
    current (blk 1 499 [cyc false true 0]) = some (waitNRecord 500) ∧
    (inputs (blk 1 499 [cyc false true 0])).rst = false ∧
    (blk 1 499 [cyc false true 0]).CNT < (waitNRecord 500).dur ∧
    (inputs (blk 1 499 [cyc false true 0])).tick = true := by decide
theorem witness_CountAtTheLargestValueWraps : (blk 1 65535 []).CNT + 1 = 2 ^ (blk 1 65535 []).cfg.durW := by decide
theorem witness_IdleWritesNothing : current (blk 1 499 [cyc false false 0]) = some (waitNRecord 500) ∧
    (inputs (blk 1 499 [cyc false false 0])).rst = false ∧
    (blk 1 499 [cyc false false 0]).CNT < (waitNRecord 500).dur ∧
    (inputs (blk 1 499 [cyc false false 0])).tick = false := by decide
/-- For GenericRecordRunsOneStep, GoRowsHoldUnlessDemand and WaitRowsAdvanceUnconditionally. -/
theorem witness_PortsWork : PortsWork (loopAt .loop 0 [cyc false false 3]) ∧
    PortsWork (loopAt .hosted 0 [cyc false false 0]) ∧ (loopAt .loop 3 [cyc false false 0]).build ≠ .block ∧
    current (loopAt .loop 3 [cyc false false 0]) = some (waitERecord 500) := by
  refine ⟨⟨rfl, rfl⟩, ⟨rfl, rfl⟩, by decide, rfl⟩
theorem witness_RecordRowsStopOnlyOnAFailingHostedPort : instrRecord .goE = some (goERecord .hold 3000) ∧
    (loopAt .hosted 2 [⟨false, false, 0, some .light⟩]).build = .hosted ∧
    (inputs (loopAt .hosted 2 [⟨false, false, 0, some .light⟩])).portFault = some .light ∧
    (loopAt .loop 2 [⟨false, false, 0, some .light⟩]).build ≠ .hosted ∧
    (inputs (loopAt .hosted 2 [cyc false false 0])).portFault = none := by decide
theorem witness_InstructionFrames : exec .count (blk 1 499 []) = .next (blk 1 500 []) ∧
    exec .idle (blk 1 499 []) = .next (blk 1 499 []) ∧ exec .reset (blk 1 499 []) = .next (blk 0 0 []) ∧
    ∃ t, exec .waitN (loopAt .loop 1 [cyc false false 0]) = .next t := ⟨rfl, rfl, rfl, _, rfl⟩
theorem witness_TableIsNeverWritten : ∃ t, Host.Core.run core 1 (blk 0 0 [cyc false true 0]) = .next t := ⟨_, rfl⟩
theorem witness_OnlyResetAndAdvanceMoveTheCursor :
    current (blk 0 2999 [cyc false true 1]) = some (goNRecord .hold 3000) ∧
    (inputs (blk 0 2999 [cyc false true 1])).rst = false ∧ (blk 0 2999 [cyc false true 1]).CNT < 3000 ∧
    ∃ t, step (blk 0 2999 [cyc false true 1]) = .next t := ⟨rfl, rfl, by decide, _, rfl⟩
theorem witness_StepRunsTheDecodedInstruction : ctrlVector (blk 0 0 [cyc false true 0]) = some 0b001 ∧
    readWord (loopAt .loop 2 []).cfg (loopAt .loop 2 []).S = some 0x0C0BB8BA := by decide
theorem witness_OneOperationPerCycleByPriority : (blk 0 3000 []).build = .block ∧ current (blk 0 3000 []) = some (goNRecord .hold 3000) := by decide
theorem witness_StepIsTheCycleFunction : (blk 0 65535 [cyc false false 1]).CNT < 2 ^ 16 ∧
    cycle (refConfig refParams) (0, 65535) (cyc false false 1) = some (1, 0) ∧
    cycle (refConfig refParams) (4, 0) (cyc false false 1) = none := by decide
theorem witness_OutputsAreMooreOutputs : current (blk 3 7 []) = some (waitERecord 500) ∧
    (blk 3 7 []).cfg = (blk 3 8 []).cfg ∧ (blk 3 7 []).S = (blk 3 8 []).S := by decide
/-- Each way for `validate` to refuse a table of numbers. -/
theorem witness_InvalidTableNeverRuns : validate 4 16 4 (refTable refParams) = some (.badStart 4) ∧
    validate 0 16 0 [] = some (.badTableSize 0 0) := by decide
theorem witness_UndefinedTableReadIsRefused : (blk 4 0 [cyc false false 0]).cfg.nstates ≤ (blk 4 0 [cyc false false 0]).S ∧
    (inputs (blk 4 0 [cyc false false 0])).rst = false ∧ (inputs (blk 4 0 [cyc true false 0])).rst = true ∧
    (loopAt .loop 4 []).build ≠ .block := by decide
theorem witness_SensorIsIgnoredOutsideAdvance : (blk 0 2999 [cyc false true 1]).ins = cyc false true 1 :: [] ∧
    current (blk 0 2999 [cyc false true 1]) = some (goNRecord .hold 3000) ∧ (cyc true true 1).rst = true ∧
    (blk 0 2999 [cyc false true 1]).CNT < (goNRecord .hold 3000).dur := by decide
theorem witness_TickIsLostInAdvanceAndReset : (blk 0 3000 [cyc false true 1]).ins = cyc false true 1 :: [] ∧ (cyc true true 1).rst = true ∧
    current (blk 0 3000 [cyc false true 1]) = some (goNRecord .hold 3000) ∧
    (goNRecord .hold 3000).dur ≤ (blk 0 3000 [cyc false true 1]).CNT := by decide
theorem witness_StateAfterReset : readRecord (refConfig refParams) 0 = some (goNRecord .hold 3000) := by decide
/-- For TransitionFunctionIsTotal and NextStateDescribesTheReturnedState: the last state. -/
theorem witness_last_state : 3 < (refConfig refParams).nstates := by decide
theorem witness_StepKeepsTheInvariant : RunInv (blk 0 3000 [cyc false false 1]) ∧
    ∃ t, step (blk 0 3000 [cyc false false 1]) = .next t := ⟨blk_inv _ _ (by decide), _, rfl⟩
theorem witness_OnlyAFailingHostedPortStopsAStep : RunInv (loopAt .hosted 0 [⟨false, false, 0, some .sensor⟩]) :=
  loopAt_inv _ _
theorem witness_EveryRunGoesOn : RunInv (loopAt .loop 0 []) ∧ (loopAt .loop 0 []).build ≠ .hosted :=
  ⟨loopAt_inv _ _, by decide⟩
theorem witness_PatternIsOnBeforeItsHoldBegins : RunInv (blk 0 3000 [cyc false false 1]) ∧
    current (blk 0 3000 [cyc false false 1]) = some (goNRecord .hold 3000) ∧
    (∃ t, step (blk 0 3000 [cyc false false 1]) = .next t) ∧
    (goNRecord .hold 3000).dur ≤ (blk 0 3000 [cyc false false 1]).CNT ∧
    ∃ t, step (blk 0 5 [cyc false true 1]) = .next t ∧ t.CNT = (blk 0 5 [cyc false true 1]).CNT + 1 :=
  ⟨blk_inv _ _ (by decide), rfl, ⟨_, rfl⟩, by decide, _, rfl, rfl⟩
theorem witness_OnlyTicksMoveAHold :
    let s := blk 1 498 [cyc false true 0, cyc false false 3]
    s.build = .block ∧ current s = some (waitNRecord 500) ∧ 2 ≤ s.ins.length ∧
    (∀ i ∈ s.ins.take 2, i.rst = false) ∧ s.CNT + ticks (s.ins.take 2) < (waitNRecord 500).dur := by decide
/-- A hold of two ticks, and the boundary of a zero duration, whose hold is empty. -/
theorem witness_StepLastsUntilTheLastTickAndOneCycle :
    let hold := [cyc false true 0, cyc false false 3, cyc false true 2]
    let s : State := ⟨refConfig ⟨.hold, 2, 0, 10000⟩, .block, 0, 0, hold ++ cyc false false 1 :: [], 0, []⟩
    let z : State := ⟨refConfig ⟨.hold, 2, 0, 10000⟩, .block, 1, 0, [] ++ cyc false false 1 :: [], 0, []⟩
    current s = some (goNRecord .hold 2) ∧ s.CNT = 0 ∧
    (∀ i ∈ hold, i.rst = false) ∧ ticks hold = (goNRecord .hold 2).dur ∧
    (∀ pre last, hold = pre ++ [last] → last.tick = true) ∧
    current z = some (waitNRecord 0) ∧ ticks [] = (waitNRecord 0).dur := by
  refine ⟨by decide, rfl, by decide, by decide, fun pre last h => ?_, by decide, by decide⟩
  have hl := congrArg List.getLast? h
  rw [List.getLast?_append] at hl
  have : cyc false true 2 = last := by simpa using hl
  exact this ▸ rfl
theorem witness_SelfLoopHoldsTheFullDurationAgain : current (blk 0 3000 [cyc false false 2]) = some (goNRecord .hold 3000) ∧
    (inputs (blk 0 3000 [cyc false false 2])).rst = false ∧
    (goNRecord .hold 3000).dur ≤ (blk 0 3000 [cyc false false 2]).CNT ∧
    nextOf (goNRecord .hold 3000) (inputs (blk 0 3000 [cyc false false 2])).sensor =
      (blk 0 3000 [cyc false false 2]).S := by decide
theorem witness_BlockRefinesTheControlLoop : RunInv (blk 0 3000 [cyc false false 1]) ∧
    NoReset 1 (blk 0 3000 [cyc false false 1]) ∧
    (∃ t, Host.Core.run core 1 (blk 0 3000 [cyc false false 1]) = .next t) ∧
    sampled 1 (blk 0 3000 [cyc false false 1]) = [1] ∧
    (loopAt .loop 0 [cyc false false 1]).ins.map (fun i => i.sensor) = sampled 1 (blk 0 3000 [cyc false false 1]) :=
  ⟨blk_inv _ _ (by decide), ⟨rfl, fun _ _ => trivial⟩, ⟨_, rfl⟩, rfl, rfl⟩
/-- For RunNStepsIteratesDelta and, at `n = 0`, SoftwareLightPortLagsTheCursor. -/
theorem witness_RunNStepsIteratesDelta : RunInv (loopAt .loop 0 [cyc false false 1]) ∧
    (loopAt .loop 0 [cyc false false 1]).build = .loop ∧ 1 ≤ (loopAt .loop 0 [cyc false false 1]).ins.length :=
  ⟨loopAt_inv _ _, rfl, by decide⟩
theorem witness_RunNStepsStopsAtTheFailingPort :
    let bad : Inputs := ⟨false, false, 0, some .sensor⟩
    let s := loopAt .hosted 0 ([cyc false false 1] ++ bad :: [])
    RunInv s ∧ s.build = .hosted ∧ (∀ i ∈ [cyc false false 1], i.portFault = none) ∧ bad.portFault = some .sensor ∧
    [cyc false false 1].length < 2 := ⟨loopAt_inv _ _, rfl, by decide, rfl, by decide⟩
/-- One witness for each clause of the scan order. -/
theorem witness_ValidateReportsTheFirstError :
    (0 < 1 ∧ (refTable refParams).length ≠ 3) ∧ (1 ≤ 4 ∧ (refTable refParams).length = 4 ∧ 4 ≤ 4) ∧
    recordError 4 16 0 ⟨0, 0, [0, 1, 0, 0]⟩ = none ∧
    recordError 4 16 1 ⟨0, 0, [2, 2, 2]⟩ = some (.missingTransition 1 3) ∧
    recordError 4 16 0 ⟨0b111111, 65536, [0, 4, 9, 0]⟩ = some (.badTarget 0 1 4) ∧
    recordError 4 16 0 ⟨0b111111, 65536, [0, 1, 2, 3]⟩ = some (.outputConflict 0 .north) ∧
    recordError 4 16 0 ⟨0b110001, 65536, [0, 1, 2, 3]⟩ = some (.outputConflict 0 .east) ∧
    recordError 4 16 0 ⟨0b100001, 65536, [0, 1, 2, 3]⟩ = some (.durationRange 0 65536) := by decide
theorem witness_ConstructionBuildsTheGivenTable : construct (refNumbers refParams) (refTable refParams) = .ok (refConfig refParams) ∧
    (refTable refParams)[3]? = some ⟨0b010100, 500, [0, 0, 0, 0]⟩ := by decide
theorem witness_ReferenceTableIsSymmetric : mirror 3 = 1 ∧ swapReading 1 = 2 ∧ 3 < 4 := by decide
theorem witness_GoStateHoldsWithoutConflictingDemand : refParams.bothPolicy = .hold ∧
    (∀ r ∈ ([0, 2, 3] : List Reading), r = 0 ∨ r = 2 ∨ (r = 3 ∧ refParams.bothPolicy = .hold)) ∧
    ∀ r ∈ ([0, 1, 3] : List Reading), r = 0 ∨ r = 1 ∨ (r = 3 ∧ refParams.bothPolicy = .hold) := by decide
theorem witness_ReferenceLightsAreSafeInEveryCycle : Reference (blk 0 0 []).cfg ∧ RunInv (blk 0 0 []) ∧
    (blk 0 0 []).build = .block := ⟨ref_reference, blk_inv _ _ (by decide), rfl⟩
theorem witness_LoopWritesOnlySafePatterns : Reference (refConfig refParams) ∧
    .lightWrite 0b100001 ∈ loopTrace (refConfig refParams) 0 [1] := ⟨ref_reference, by decide⟩
theorem witness_GreenGivesWayThroughItsOwnYellow : Reference (blk 0 3000 [cyc false false 1]).cfg ∧
    RunInv (blk 0 3000 [cyc false false 1]) ∧ (inputs (blk 0 3000 [cyc false false 1])).rst = false ∧
    ∃ t, step (blk 0 3000 [cyc false false 1]) = .next t := ⟨ref_reference, blk_inv _ _ (by decide), rfl, _, rfl⟩

end Sys2Proof.Tests
end

section
/-! The state width of 00_scope.md R7: `stateW` is the least width of at least one bit that fits. -/

namespace Sys2Proof

/-- The scan for `ceil(log2(n))` starts at 0, so it passes no exponent that already fits. -/
theorem ceilLog2_le {n j : Nat} (hj : n ≤ 2 ^ j) : ceilLog2 n ≤ j :=
  ceilLog2From_le n n 0 j (Nat.zero_le j) hj

theorem stateW_le {n k : Nat} (hk : 1 ≤ k) (hn : n ≤ 2 ^ k) : stateW n ≤ k :=
  Nat.max_le.mpr ⟨hk, ceilLog2_le hn⟩

/-- Settles O5: the lower bound and the fit are laws of `stateW`; it is least because both sides of its maximum are
below every width that fits. -/
theorem stateWidthIsTheLeastThatFits : Obligations.StateWidthIsTheLeastThatFits := by
  intro n
  exact ⟨one_le_stateW n, le_two_pow_stateW n, fun _ => stateW_le⟩

end Sys2Proof
end

section
/-! The state of 10_state.md: what every instruction leaves unchanged (R20, R21, R23), the state after reset (R33) and the
invariant of a run (R34). -/

namespace Sys2Proof.Machine

/-! ### The comparator, the record at `S` and the counter -/

theorem timeUp_eq_false {rec : Record} {cnt : Nat} : timeUp rec cnt = false ↔ cnt < rec.dur := by simp [timeUp]

@[simp] theorem current_endCycle (s : State) : current (endCycle s) = current s := rfl
@[simp] theorem current_countUnit (s : State) : current (countUnit s) = current s := rfl
@[simp] theorem current_start (c : Config) (b : Build) (ins : List Inputs) :
    current (State.start c b ins) = readRecord c c.start := rfl

/-- While a hold runs COUNT does not wrap: the duration fits `DUR_W` bits (41_engine_operations.md R139). -/
theorem countUnit_CNT_of_running {s : State} {rec : Record} (hc : current s = some rec) (hlt : s.CNT < rec.dur) :
    (countUnit s).CNT = s.CNT + 1 := by
  have hdur : rec.dur < 2 ^ s.cfg.durW := (record_valid hc).2.2
  exact Nat.mod_eq_of_lt (by omega)

/-- A cycle without reset while a hold runs is COUNT or IDLE, by `tick` alone. -/
theorem step_block_running {s : State} {rec : Record} (hb : s.build = .block) (hc : current s = some rec)
    (hrst : (inputs s).rst = false) (hlt : s.CNT < rec.dur) :
    step s = .next (endCycle (if (inputs s).tick then countUnit s else s)) := by
  simp [step_block hb hc, hrst, timeUp_eq_false.2 hlt]

/-! ### The invariant of a run -/

/-- A state of the table that was just entered meets the invariant: the base case, and the case of every step that
selects a state. -/
theorem runInv_of_entered {s : State} (hS : s.S < s.cfg.nstates) (hCNT : s.CNT = 0) : RunInv s := by
  obtain ⟨rec, hc⟩ := readRecord_of_lt hS
  exact runInv_of_current hc (hCNT ▸ Nat.zero_le _) fun _ => hCNT

/-- The state a record selects for a reading is a state of the table (40_transition_table.md R101). -/
theorem nextOf_current_lt {s : State} {rec : Record} (hc : current s = some rec) (r : Reading) :
    nextOf rec r < s.cfg.nstates := nextOf_lt (record_valid hc).1 r

/-- The block in a state whose duration `CNT` does not exceed meets the invariant. -/
theorem runInv_of_block {s : State} {rec : Record} (hb : s.build = .block) (hc : current s = some rec)
    (hle : s.CNT ≤ rec.dur) : RunInv s := runInv_of_current hc hle fun h => absurd hb h

/-- Every step that answers a next state establishes the invariant, from any state: it enters a state of the table with
`CNT = 0`, or it keeps the state and the comparator has shown `CNT` below the duration. -/
theorem runInv_of_step {s t : State} (h : step s = .next t) : RunInv t := by
  rcases step_next_cases h with ⟨-, -, rfl⟩ |
    ⟨hb, -, rec, hc, ⟨-, rfl⟩ | ⟨hx, -, rfl⟩ | ⟨hx, -, rfl⟩⟩ | ⟨-, rec, hc, -, rfl⟩
  · exact runInv_of_entered (start_lt s.cfg) rfl
  · exact runInv_of_entered (nextOf_current_lt hc _) rfl
  · have hcount : (endCycle (countUnit s)).CNT = s.CNT + 1 := countUnit_CNT_of_running hc (timeUp_eq_false.1 hx)
    exact runInv_of_block hb (by simpa using hc) (hcount.trans_le (timeUp_eq_false.1 hx))
  · exact runInv_of_block hb (by simpa using hc) (timeUp_eq_false.1 hx).le
  · exact runInv_of_entered (nextOf_current_lt hc _) rfl

theorem runInv_start (c : Config) (b : Build) (ins : List Inputs) : RunInv (State.start c b ins) :=
  runInv_of_entered (start_lt c) rfl

/-! ### The ports after reset -/

theorem lights_start {c : Config} (b : Build) (ins : List Inputs) {rec : Record} (hr : readRecord c c.start = some rec) :
    lights (State.start c b ins) = some rec.out := by simp [lights, hr]

/-- After reset `sample` is 1 exactly if the duration of the start state is 0 (41_engine_operations.md R144). -/
theorem sample_start {c : Config} (b : Build) (ins : List Inputs) {rec : Record} (hr : readRecord c c.start = some rec) :
    sample (State.start c b ins) = some (decide (rec.dur = 0)) := by simp [sample, expired, timeUp, hr]

/-! ### What an instruction leaves unchanged -/

/-- The frame of every instruction: the configuration, the form that runs and the inputs. -/
theorem exec_frame {i : Instr} {s t : State} (h : exec i s = .next t) :
    t.cfg = s.cfg ∧ t.build = s.build ∧ t.ins = s.ins ∧ t.now = s.now := by
  rcases exec_next_cases h with ⟨-, rfl⟩ | ⟨-, rec, -, rfl⟩ | ⟨-, rfl⟩ | ⟨-, rfl⟩ | ⟨rec, -, -, rfl⟩ <;>
    exact ⟨rfl, rfl, rfl, rfl⟩

/-- A control operation is no event of the step level (42_step_semantics.md R175). -/
theorem exec_control_trace {i : Instr} {s t : State} (hi : instrRecord i = none) (h : exec i s = .next t) :
    t.trace = s.trace := by
  rcases exec_next_cases h with ⟨-, rfl⟩ | ⟨-, rec, -, rfl⟩ | ⟨-, rfl⟩ | ⟨-, rfl⟩ | ⟨rec, hrec, -, -⟩
  · rfl
  · rfl
  · rfl
  · rfl
  · simp [hi] at hrec

/-- A completed record appends its three events and leaves `CNT` 0. -/
theorem exec_record_CNT_trace {i : Instr} {rec : Record} {s t : State} (hi : instrRecord i = some rec)
    (h : exec i s = .next t) :
    t.CNT = 0 ∧ t.trace = s.trace ++ [.lightWrite rec.out, .wait rec.dur, .sensorRead (inputs s).sensor] := by
  obtain ⟨-, rfl⟩ := runRecord_next (exec_record hi s ▸ h)
  exact ⟨rfl, rfl⟩

/-- RESET and ADVANCE clear the counter (41_engine_operations.md R137, R138). -/
theorem exec_enter_CNT {i : Instr} {s t : State} (hi : i = .reset ∨ i = .advance) (h : exec i s = .next t) :
    t.CNT = 0 := by
  rcases exec_next_cases h with ⟨-, rfl⟩ | ⟨-, rec, -, rfl⟩ | ⟨rfl, -⟩ | ⟨rfl, -⟩ | ⟨rec, -, -, rfl⟩
  · rfl
  · rfl
  · simp at hi
  · simp at hi
  · rfl

theorem exec_count_S {s t : State} (h : exec .count s = .next t) : t.S = s.S := by
  cases h; rfl

theorem exec_idle_eq {s t : State} (h : exec .idle s = .next t) : t = s := by
  cases h; rfl

end Sys2Proof.Machine

namespace Sys2Proof
open Machine

/-- Settles O32: the next state meets the invariant whatever state the step began in. -/
theorem stepKeepsTheInvariant : Obligations.StepKeepsTheInvariant := fun _ _ _ h => runInv_of_step h

/-- Settles O19: the frame of every instruction, with what each kind of row does to the trace, `CNT` and `S`. -/
theorem instructionFrames : Obligations.InstructionFrames := by
  intro i s t h
  obtain ⟨hcfg, hbuild, hins, hnow⟩ := exec_frame h
  refine ⟨hcfg, fun a => by rw [hcfg], hbuild, hins, hnow, fun hi => exec_control_trace hi h,
    fun rec hi => exec_record_CNT_trace hi h, fun hi => exec_enter_CNT hi h, ?_, ?_⟩
  · rintro rfl
    exact exec_count_S h
  · rintro rfl
    exact exec_idle_eq h

/-- Settles O21: such a cycle is COUNT or IDLE; both keep `S`, and COUNT does not wrap below the duration. -/
theorem onlyResetAndAdvanceMoveTheCursor : Obligations.OnlyResetAndAdvanceMoveTheCursor := by
  intro s t rec hb hc hrst hlt h
  rw [step_block_running hb hc hrst hlt] at h
  cases h
  cases htick : (inputs s).tick with
  | false => exact ⟨rfl, rfl, rfl⟩
  | true => exact ⟨rfl, rfl, countUnit_CNT_of_running hc hlt⟩

/-- Settles O30: the ports are read off the start record; the reference design starts in goN. -/
theorem stateAfterReset : Obligations.StateAfterReset := by
  refine ⟨fun c b ins rec hr => ⟨rfl, rfl, lights_start b ins hr, sample_start b ins hr⟩, rfl, rfl, ?_, ?_⟩
  · exact lights_start _ _ (readRecord_refConfig refParams).1
  · exact sample_start _ _ (readRecord_refConfig refParams).1

/-- Settles O31: after reset the block, or a loop, has just entered `START`. -/
theorem invariantHoldsAfterReset : Obligations.InvariantHoldsAfterReset :=
  ⟨runInv_start, runInv_start _ _ _⟩

end Sys2Proof
end

section
/-! The table memory of 20_memory.md: its serialised image (R44), that nothing writes it (R43), undefined reads (R42), and
when the lights show a state's pattern while its hold is counted (R51, R57). -/

namespace Sys2Proof.Machine

/-! ### The serialised image (R44) -/

theorem length_tableWords (c : Config) : (tableWords c).length = c.nstates := by
  rw [tableWords, List.length_map, length_tbl]

/-- Every record of the table fits its word. -/
theorem fits_of_mem_tbl {c : Config} {rec : Record} (h : rec ∈ c.tbl) : rec.fits c.widths = true := by
  obtain ⟨i, hi⟩ := List.mem_iff_getElem?.1 h
  exact record_fits hi

/-- Every word of the table fits the `ceil(REC_W/8)` bytes in which the image stores it. -/
theorem lt_of_mem_tableWords {c : Config} {w : Nat} (h : w ∈ tableWords c) : w < 256 ^ recBytes c.widths := by
  obtain ⟨rec, hrec, rfl⟩ := List.mem_map.1 h
  exact (encodeRecord_lt _ _ (fits_of_mem_tbl hrec)).trans_le (recW_le_bytes _)

/-- Words laid out one after the other, each in `k` bytes that hold it, read back in the same order. -/
theorem imageWords_flatMap_leBytes {k : Nat} {ws : List Nat} (h : ∀ w ∈ ws, w < 256 ^ k) :
    imageWords k ws.length (ws.flatMap (leBytes k)) = ws := by
  induction ws with
  | nil => rfl
  | cons w ws ih =>
    obtain ⟨hw, hws⟩ := List.forall_mem_cons.1 h
    have htake : (leBytes k w ++ ws.flatMap (leBytes k)).take k = leBytes k w :=
      List.take_left' (length_leBytes k w)
    have hdrop : (leBytes k w ++ ws.flatMap (leBytes k)).drop k = ws.flatMap (leBytes k) :=
      List.drop_left' (length_leBytes k w)
    rw [List.flatMap_cons, List.length_cons, imageWords, htake, hdrop, leNat_leBytes k w hw, ih hws]

theorem length_imageBytes (c : Config) : (imageBytes c).length = c.nstates * recBytes c.widths := by
  simp [imageBytes, List.length_flatMap, length_tableWords]

theorem imageWords_imageBytes (c : Config) :
    imageWords (recBytes c.widths) c.nstates (imageBytes c) = tableWords c := by
  have h := imageWords_flatMap_leBytes fun w (hw : w ∈ tableWords c) => lt_of_mem_tableWords hw
  rwa [length_tableWords] at h

theorem map_decodeRecord_tableWords (c : Config) : (tableWords c).map (decodeRecord c.widths) = c.tbl := by
  have h : ∀ rec ∈ c.tbl, decodeRecord c.widths (encodeRecord c.widths rec) = rec := fun rec hrec =>
    decodeRecord_encodeRecord _ _ (fits_of_mem_tbl hrec)
  rw [tableWords, List.map_map]
  exact (List.map_congr_left h).trans (List.map_id c.tbl)

/-! ### Nothing writes the table (R43) -/

/-- A run of any length keeps the configuration. -/
theorem run_cfg {n : Nat} {s t : State} (h : Host.Core.run core n s = .next t) : t.cfg = s.cfg := by
  induction n generalizing s with
  | zero => cases h; rfl
  | succ n ih =>
    obtain ⟨u, hstep, hrun⟩ := run_succ_next h
    exact (ih hrun).trans (step_cfg hstep)

/-! ### Undefined reads (R42) -/

/-- Without a record at `S` a cycle of the block can only reset. -/
theorem step_block_undefined {s : State} (hb : s.build = .block) (hc : current s = none) : step s =
    if (inputs s).rst then .next (endCycle (enter s.cfg.start s)) else .refused (.undefinedTableRead s.S) := by
  rw [step, fetch_block_undefined hb hc]
  cases (inputs s).rst <;> rfl

/-- Without a record at `S` an iteration of the control loop is refused. -/
theorem step_loop_undefined {s : State} (hb : s.build ≠ .block) (hc : current s = none) :
    step s = .refused (.undefinedTableRead s.S) := by
  have hw : readWord s.cfg s.S = none := congrArg (Option.map _) hc
  have hf : fetch s = .stop (.undefinedTableRead s.S) := by
    cases h : s.build with
    | block => exact absurd h hb
    | loop => simp [fetch, h, fetchRecord, hw]
    | hosted => simp [fetch, h, fetchRecord, hw]
  rw [step, hf]

theorem exec_advance_undefined {s : State} (hc : current s = none) :
    exec .advance s = .refused (.undefinedTableRead s.S) := by
  simp [exec, execAdvance, nxt, hc]

/-! ### The pattern and the hold (R51, R57) -/

theorem lights_of_current {s : State} {rec : Record} (hc : current s = some rec) : lights s = some rec.out := by
  simp [lights, hc]

/-- RESET and ADVANCE, by whichever condition selected them, leave `CNT = 0`. -/
theorem step_block_enter_CNT {s t : State} {rec : Record} (hb : s.build = .block) (hc : current s = some rec)
    (henter : (inputs s).rst = true ∨ rec.dur ≤ s.CNT) (h : step s = .next t) : t.CNT = 0 := by
  rw [step_block hb hc] at h
  cases h
  cases hrst : (inputs s).rst with
  | true => rfl
  | false =>
    have hup : timeUp rec s.CNT = true := by simpa [timeUp, hrst] using henter
    simp [hup]

/-- A step after which `CNT` is one more was no RESET and no ADVANCE, so the state stays. -/
theorem step_block_counted_S {s t : State} {rec : Record} (hb : s.build = .block) (hc : current s = some rec)
    (h : step s = .next t) (hCNT : t.CNT = s.CNT + 1) : t.S = s.S := by
  by_cases henter : (inputs s).rst = true ∨ rec.dur ≤ s.CNT
  · have hzero := step_block_enter_CNT hb hc henter h
    omega
  · obtain ⟨hrst, hlt⟩ := not_or.1 henter
    rw [step_block_running hb hc (Bool.eq_false_iff.2 hrst) (Nat.not_le.1 hlt)] at h
    cases h
    cases (inputs s).tick <;> rfl

theorem ticks_cons (i : Inputs) (l : List Inputs) : ticks (i :: l) = i.tick.toNat + ticks l := by
  cases h : i.tick <;> simp [ticks, h, Nat.add_comm]

/-- A queued cycle of a running hold: `CNT` grows by the tick, and only the queue and the cycle number move besides. -/
theorem step_block_running_queued {s : State} {rec : Record} {i : Inputs} {rest : List Inputs}
    (hb : s.build = .block) (hc : current s = some rec) (hins : s.ins = i :: rest) (hrst : i.rst = false)
    (hlt : s.CNT < rec.dur) :
    step s = .next { s with CNT := s.CNT + i.tick.toNat, ins := rest, now := s.now + 1 } := by
  rw [step_block_running hb hc (by rwa [inputs_cons hins]) hlt, inputs_cons hins]
  cases i.tick with
  | false => simp [endCycle, hins]
  | true =>
    have hcount : (s.CNT + 1) % 2 ^ s.cfg.durW = s.CNT + 1 := countUnit_CNT_of_running hc hlt
    simp [endCycle, countUnit, hcount, hins]

end Sys2Proof.Machine

namespace Sys2Proof
open Machine

/-- Settles O8: each word fits its bytes and each record its word, so both layers read back. -/
theorem tableImageReadsBack : Obligations.TableImageReadsBack := fun c =>
  ⟨length_imageBytes c, imageWords_imageBytes c, map_decodeRecord_tableWords c⟩

/-- Settles O20: the frame of every instruction, and of every step by induction over the run. -/
theorem tableIsNeverWritten : Obligations.TableIsNeverWritten := by
  refine ⟨fun i s t h => (exec_frame h).1, fun n s t h => ?_⟩
  have hcfg := run_cfg h
  exact ⟨hcfg, fun i => by rw [hcfg]⟩

/-- Settles O27: at such an `S` there is no current record, and only RESET needs none. -/
theorem undefinedTableReadIsRefused : Obligations.UndefinedTableReadIsRefused := by
  refine ⟨fun c i => readRecord_none_of_le, fun s hS => ?_⟩
  have hc : current s = none := readRecord_none_of_le hS
  refine ⟨fun hb => step_loop_undefined hb hc, fun hb hrst => ?_, fun hb hrst => ?_, exec_advance_undefined hc⟩
  · simp [step_block_undefined hb hc, hrst]
  · exact ⟨endCycle (enter s.cfg.start s), by simp [step_block_undefined hb hc, hrst], rfl, rfl⟩

/-- Settles O36: the state entered is a state of the table, so its record is on the lights; a counted cycle keeps the
state and the configuration, and so the record. -/
theorem patternIsOnBeforeItsHoldBegins : Obligations.PatternIsOnBeforeItsHoldBegins := by
  intro s t rec _ hb hc h
  refine ⟨fun henter => ?_, fun hCNT => ?_⟩
  · obtain ⟨rec', hr⟩ := readRecord_of_lt (runInv_of_step h).cursor
    exact ⟨step_block_enter_CNT hb hc henter h, rec', hr, lights_of_current hr⟩
  · have hS : t.S = s.S := step_block_counted_S hb hc h hCNT
    have hct : current t = some rec := (current_congr (step_cfg h) hS).trans hc
    exact ⟨hS, lights_of_current hc, lights_of_current hct⟩

/-- Settles O37, by induction on the number of cycles: the ticks of the first and of the later cycles add up, and no
proper part of them completes the duration. -/
theorem onlyTicksMoveAHold : Obligations.OnlyTicksMoveAHold := by
  intro n
  induction n with
  | zero => intro s _ _ _ _ _ _; rfl
  | succ n ih =>
    intro s rec hb hc hlen hrst hlt
    cases hins : s.ins with
    | nil => simp [hins] at hlen
    | cons i rest =>
      simp only [hins, List.take_succ_cons, List.drop_succ_cons, List.length_cons, List.forall_mem_cons, ticks_cons]
        at hlen hrst hlt ⊢
      obtain ⟨hrst, hrsts⟩ := hrst
      have hstep := step_block_running_queued hb hc hins hrst (by omega)
      have hrest := ih { s with CNT := s.CNT + i.tick.toNat, ins := rest, now := s.now + 1 } rec hb hc
        (Nat.le_of_succ_le_succ hlen) hrsts (by dsimp only; omega)
      rw [run_succ_of_step n hstep, hrest]
      simp [Nat.add_assoc, Nat.add_comm 1]

end Sys2Proof
end

section
/-! The instruction encodings of 30_encoding.md: decoding the bytes of an instruction (R78, R80), record words (R80) and
the reference images (R79). -/

namespace Sys2Proof
open Machine

/-! ### The bytes of an instruction (R78, R80) -/

/-- The byte of a control vector decodes to the operation the vector selects. -/
theorem decodeBytes_ctrlWord (wd : Widths) (c : CtrlWord) :
    decodeBytes wd (leBytes 1 c.toNat) = .ok (decodeCtrl c) := by
  have hle : leNat (leBytes 1 c.toNat) = c.toNat := leNat_leBytes 1 _ (by have := c.isLt; omega)
  simp [decodeBytes, hle, c.isLt]

/-- The image of a word of `REC_W` bits decodes to the row of the word. -/
theorem decodeBytes_recordWord {wd : Widths} (hwd : 1 ≤ wd.stateW) {w : Nat} (hw : w < 2 ^ recW wd) :
    decodeBytes wd (leBytes (recBytes wd) w) = .ok (decodeRec wd w) := by
  have hle : leNat (leBytes (recBytes wd) w) = w := leNat_leBytes _ _ (hw.trans_le (recW_le_bytes wd))
  simp [decodeBytes, recBytes_ne_one wd hwd, hle, hw]

/-- A record row encodes as the word of its record. -/
theorem encode_of_instrRecord {i : Instr} {rec : Record} (hi : instrRecord i = some rec) (wd : Widths) :
    encode wd i = leBytes (recBytes wd) (encodeRecord wd rec) := by
  cases i <;> cases hi <;> rfl

/-- A row without a record is an operation: it encodes as a control vector that selects it. -/
theorem encode_of_instrRecord_none {i : Instr} (hi : instrRecord i = none) (wd : Widths) :
    ∃ c, encode wd i = leBytes 1 c.toNat ∧ decodeCtrl c = i := by
  cases i with
  | reset => exact ⟨0b100, rfl, rfl⟩
  | advance => exact ⟨0b010, rfl, rfl⟩
  | count => exact ⟨0b001, rfl, rfl⟩
  | idle => exact ⟨0b000, rfl, rfl⟩
  | _ => cases hi

theorem canonical_of_instrRecord_none {i : Instr} (hi : instrRecord i = none) (wd : Widths) : canonical wd i = i := by
  cases i <;> cases hi <;> rfl

/-- The record of an instruction that fits has fields that fit: the images fit the reference widths. -/
theorem fits_of_instrRecord {wd : Widths} {i : Instr} {rec : Record} (hi : instrRecord i = some rec)
    (hfit : i.fits wd = true) : rec.fits wd = true := by
  cases i <;> cases hi
  case state => exact hfit
  all_goals
    obtain rfl : wd = refWidths := of_decide_eq_true hfit
    rfl

/-- The canonical form of a record row that fits is the row its word decodes to; an image is the row of its own word. -/
theorem canonical_of_instrRecord {wd : Widths} {i : Instr} {rec : Record} (hi : instrRecord i = some rec)
    (hfit : i.fits wd = true) : canonical wd i = decodeRec wd (encodeRecord wd rec) := by
  cases i <;> cases hi
  case state => rfl
  all_goals
    obtain rfl : wd = refWidths := of_decide_eq_true hfit
    rfl

/-- Two record rows of one record have one meaning. -/
theorem exec_eq_of_instrRecord_eq {i j : Instr} {rec : Record} (hi : instrRecord i = some rec)
    (hj : instrRecord j = some rec) (s : State) : exec i s = exec j s :=
  (exec_record hi s).trans (exec_record hj s).symm

/-- Settles O1: an operation is told from a record by its length and is its own canonical form; a record's word fits its
bytes, and the row it decodes to stands for the same record, which alone gives a record row its meaning. -/
theorem decodeOfEncodeIsTheInstruction : Obligations.DecodeOfEncodeIsTheInstruction := by
  intro wd i hwd hfit
  cases hi : instrRecord i with
  | none =>
    obtain ⟨c, henc, hdec⟩ := encode_of_instrRecord_none hi wd
    rw [canonical_of_instrRecord_none hi, henc, decodeBytes_ctrlWord, hdec]
    exact ⟨rfl, hi, fun _ => rfl⟩
  | some rec =>
    have hrec : rec.fits wd = true := fits_of_instrRecord hi hfit
    have hrow : instrRecord (decodeRec wd (encodeRecord wd rec)) = some rec := by
      rw [instrRecord_decodeRec, decodeRecord_encodeRecord wd rec hrec]
    rw [canonical_of_instrRecord hi hfit, encode_of_instrRecord hi,
      decodeBytes_recordWord hwd (encodeRecord_lt wd rec hrec)]
    exact ⟨rfl, hrow, exec_eq_of_instrRecord_eq hrow hi⟩

/-! ### Record words (R80) -/

/-- A slice that begins where the next lower one ends joins with it. -/
theorem cat_slice_of_eq {hi lo n : Nat} (h : hi = lo + n) (w m : Nat) :
    cat (slice w hi m) (slice w lo n) n = slice w lo (n + m) := by
  rw [h, cat_slice_slice]

theorem slice_zero_of_lt {w len : Nat} (h : w < 2 ^ len) : slice w 0 len = w := by
  rw [slice, Nat.pow_zero, Nat.div_one, Nat.mod_eq_of_lt h]

/-- Encoding the record of a word puts the six neighbouring slices together again. -/
theorem encodeRecord_decodeRecord {wd : Widths} {w : Nat} (hw : w < 2 ^ recW wd) :
    encodeRecord wd (decodeRecord wd w) = w := by
  obtain ⟨k, d⟩ := wd
  have hout : (BitVec.ofNat 6 (slice w (4 * k + d) 6)).toNat = slice w (4 * k + d) 6 :=
    Nat.mod_eq_of_lt (slice_lt ..)
  have hlen : recW ⟨k, d⟩ = k + (k + (k + (k + (d + 6)))) := by simp only [recW]; ring
  simp only [encodeRecord, decodeRecord, hout]
  rw [cat_slice_slice, cat_slice_of_eq (show 4 * k = 3 * k + k by ring),
    cat_slice_of_eq (show 3 * k = 2 * k + k by ring), cat_slice_of_eq (show 2 * k = k + k by ring),
    cat_slice_of_eq (Nat.zero_add k).symm, ← hlen, slice_zero_of_lt hw]

/-- Settles O2: slices fit their widths and join to the word. -/
theorem everyRecordWordRoundTrips : Obligations.EveryRecordWordRoundTrips := fun wd w hw =>
  ⟨decodeRecord_fits wd w, encodeRecord_decodeRecord hw, instrRecord_decodeRec wd w⟩

/-! ### The reference images (R79) -/

/-- A four-byte table word of 30 bits decodes to the row of the word. -/
theorem decodeTableWord_recordWord {w : Nat} (hw : w < 2 ^ recW refWidths) :
    decodeTableWord 32 w = some (decodeRec refWidths w) := by
  have hdec : decodeBytes refWidths (leBytes ((32 + 7) / 8) w) = .ok (decodeRec refWidths w) :=
    decodeBytes_recordWord (wd := refWidths) (by decide) hw
  rw [decodeTableWord, hdec]

/-- Settles O3: each word has 30 bits, so its row is read off the table of images; its record encodes to it. -/
theorem referenceImagesDecodeToTheirRows : Obligations.ReferenceImagesDecodeToTheirRows :=
  ⟨decodeTableWord_recordWord (by decide), rfl, decodeTableWord_recordWord (by decide), rfl,
    decodeTableWord_recordWord (by decide), rfl, decodeTableWord_recordWord (by decide), rfl,
    decodeTableWord_recordWord (by decide), rfl, decodeTableWord_recordWord (by decide), rfl⟩

end Sys2Proof
end

section
/-! The text form of a table (30_encoding.md R84): the words of a line parse back to the line. -/

namespace Sys2Proof.Machine

/-! ### Numbers -/

/-- A digit's character reads as the digit. -/
theorem digit_digitChar {d : Nat} (hd : d < 10) : digit (digitChar d) = some d := by
  interval_cases d <;> rfl

theorem digitsValue_append (base acc : Nat) (t u : Token) :
    digitsValue base acc (t ++ u) = (digitsValue base acc t).bind fun a => digitsValue base a u := by
  induction t generalizing acc with
  | nil => rfl
  | cons c cs ih =>
    simp only [List.cons_append, digitsValue]
    cases digit c with
    | none => rfl
    | some d =>
      by_cases hd : d < base
      · simp only [if_pos hd, ih]
      · simp only [if_neg hd, Option.bind_none]

/-- One more decimal digit. -/
theorem digitsValue_digitChar (acc : Nat) {d : Nat} (hd : d < 10) :
    digitsValue 10 acc [digitChar d] = some (10 * acc + d) := by
  simp [digitsValue, digit_digitChar hd, hd]

/-- The decimal digits of a number read as the number: its last digit is appended to those of the quotient. -/
theorem digitsValue_decimalDigits {fuel n : Nat} (hn : n < fuel) :
    digitsValue 10 0 (decimalDigits fuel n) = some n := by
  induction fuel generalizing n with
  | zero => omega
  | succ fuel ih =>
    by_cases hlt : n < 10
    · simp [decimalDigits, hlt, digitsValue_digitChar]
    · have hquot := ih (n := n / 10) (by omega)
      simp only [decimalDigits, if_neg hlt, digitsValue_append, hquot, Option.bind_some,
        digitsValue_digitChar (n / 10) (Nat.mod_lt n (by decide)), Nat.div_add_mod]

theorem decimalDigits_ne_nil (fuel n : Nat) : decimalDigits (fuel + 1) n ≠ [] := by
  by_cases hlt : n < 10 <;> simp [decimalDigits, hlt]

theorem decimal_decimalDigits (n : Nat) : decimal (decimalDigits (n + 1) n) = some n := by
  rw [decimal, if_neg (decimalDigits_ne_nil n n), digitsValue_decimalDigits n.lt_succ_self]

/-- Reading bit `k` of a number after its higher bits gives the number from bit `k` up. -/
theorem digitsValue_testBit (w k : Nat) (cs : Token) :
    digitsValue 2 (w / 2 ^ (k + 1)) ((if w.testBit k then '1' else '0') :: cs) = digitsValue 2 (w / 2 ^ k) cs := by
  have hquot : w / 2 ^ (k + 1) = w / 2 ^ k / 2 := by rw [Nat.pow_succ, Nat.div_div_eq_div_mul]
  have hbit : w.testBit k = decide (w / 2 ^ k % 2 = 1) := Nat.testBit_eq_decide_div_mod_eq
  rw [hquot, hbit]
  by_cases hone : w / 2 ^ k % 2 = 1
  · have hval : 2 * (w / 2 ^ k / 2) + 1 = w / 2 ^ k := by omega
    simp [hone, digitsValue, show digit '1' = some 1 from rfl, hval]
  · have hval : 2 * (w / 2 ^ k / 2) = w / 2 ^ k := by omega
    simp [hone, digitsValue, show digit '0' = some 0 from rfl, hval]

/-- The six binary digits of a pattern read as the pattern, most significant bit first. -/
theorem binary6_binaryDigits (p : Pattern) : binary6 (binaryDigits p) = some p := by
  have hvalue : digitsValue 2 0 (binaryDigits p) = some p.toNat :=
    calc digitsValue 2 0 (binaryDigits p)
      _ = digitsValue 2 (p.toNat / 2 ^ (5 + 1)) (binaryDigits p) := by rw [Nat.div_eq_of_lt p.isLt]
      _ = digitsValue 2 (p.toNat / 2 ^ 0) [] := by
        simp only [binaryDigits, List.map_cons, List.map_nil, ← BitVec.testBit_toNat, digitsValue_testBit]
      _ = some p.toNat := by rw [Nat.pow_zero, Nat.div_one, digitsValue]
  have hlength : (binaryDigits p).length = 6 := rfl
  rw [binary6, if_pos hlength, hvalue, Option.map_some, BitVec.ofNat_toNat, BitVec.setWidth_eq]

/-! ### Lines -/

/-- A name that is not empty, with its colon, is the label of the name. -/
theorem labelOf_colon {name : Token} (hname : name ≠ []) : labelOf (name ++ [':']) = some name := by
  have hlen : 2 ≤ (name ++ [':']).length := by
    have := List.length_pos_iff.2 hname
    simp only [List.length_append, List.length_singleton]; omega
  rw [labelOf, if_pos ⟨List.getLast?_concat, hlen⟩, List.dropLast_concat]

theorem parseLine_start (n : Token) : parseLine (lineTokens (.start n)) = some (.start n) := rfl

theorem parseLine_state {name : Token} (hname : name ≠ []) (out : Pattern) (dur : Nat) (n0 n1 n2 n3 : Token) :
    parseLine (lineTokens (.state name out dur n0 n1 n2 n3)) = some (.state name out dur n0 n1 n2 n3) := by
  rw [lineTokens, parseLine, if_pos ⟨rfl, rfl, rfl⟩, labelOf_colon hname, binary6_binaryDigits, decimal_decimalDigits]

end Sys2Proof.Machine

namespace Sys2Proof
open Machine

/-- Settles O9: the keywords stand in their places, and the label, the six binary digits and the decimal digits each read
back. -/
theorem sourceLineParsesBack : Obligations.SourceLineParsesBack :=
  ⟨parseLine_start, fun _ out dur n0 n1 n2 n3 hname => parseLine_state hname out dur n0 n1 n2 n3⟩

end Sys2Proof
end

section
/-! Control vectors, readings and patterns: what the bits of 30_encoding.md R72 to R78 and R81 mean. -/

namespace Sys2Proof.Machine

theorem getLsbD_ctrlOf (rst exp tick : Bool) : (ctrlOf rst exp tick).getLsbD 2 = rst ∧
    (ctrlOf rst exp tick).getLsbD 1 = exp ∧ (ctrlOf rst exp tick).getLsbD 0 = tick := by
  simp only [ctrlOf, BitVec.getLsbD_append]
  simp

/-- The control vector of a cycle has the comparator's output as its `expired`. -/
theorem ctrlVector_of_current {s : State} {rec : Record} (hc : current s = some rec) :
    ctrlVector s = some (ctrlOf (inputs s).rst (timeUp rec s.CNT) (inputs s).tick) := by
  simp [ctrlVector, expired, hc]

/-- The legal patterns are those that give each road, east in the high half and north in the low half, no light or one of
its three. -/
theorem filter_patternLegal : ((List.range 64).filter fun k => patternLegal (BitVec.ofNat 6 k)) =
    [0, 1, 2, 4].flatMap fun east => [0, 1, 2, 4].map fun north => 8 * east + north := by decide

end Sys2Proof.Machine

namespace Sys2Proof
open Machine

/-- Settles O4: the vector decodes by priority, its bits are its parts, and the comparator gives the middle one. -/
theorem controlVectorDecodesByItsTable : Obligations.ControlVectorDecodesByItsTable := by
  intro rst exp tick
  obtain ⟨hrst, hexp, htick⟩ := getLsbD_ctrlOf rst exp tick
  rw [decodeCtrl_ctrlOf]
  refine ⟨?_, ?_, ?_, ?_, hrst, hexp, htick, fun s rec hc => ctrlVector_of_current hc⟩
  · rintro rfl; rfl
  · rintro rfl rfl; rfl
  · rintro rfl rfl rfl; rfl
  · rintro rfl rfl rfl; rfl

/-- Settles O6, by the four pairs of detector values. -/
theorem readingSelectsTheNextField : Obligations.ReadingSelectsTheNextField := by
  intro rec north east
  cases north <;> cases east <;> exact ⟨rfl, rfl, rfl, rfl⟩

/-- Settles O7: each light's bit is picked out of the six joined values. -/
theorem patternBitsAreTheSixLights : Obligations.PatternBitsAreTheSixLights := by
  intro er ey eg nr ny ng
  simp only [lit, lightBit, BitVec.getLsbD_append]
  simp

/-- Settles O47: four choices for each of the two roads. -/
theorem sixteenPatternsAreLegal : Obligations.SixteenPatternsAreLegal :=
  congrArg List.length filter_patternLegal

end Sys2Proof
end

section
/-! The transition table of 40_transition_table.md: a record's step (R100, R103 to R107), the transition function
(R101), the reference table's design intent and symmetry (R105, R109), and its safe lights (R110, R111). -/

namespace Sys2Proof.Machine

/-! ### The next field a reading selects (R100) -/

theorem reading_cases (r : Reading) : r = 0 ∨ r = 1 ∨ r = 2 ∨ r = 3 := by
  revert r; decide

theorem nextOf_eq_ite (rec : Record) (r : Reading) : nextOf rec r =
    if r = 0 then rec.next0 else if r = 1 then rec.next1 else if r = 2 then rec.next2 else rec.next3 := by
  obtain rfl | rfl | rfl | rfl := reading_cases r <;> rfl

/-- A record whose four entries agree goes there at every reading. -/
theorem nextOf_const (out : Pattern) (dur n : Nat) (r : Reading) : nextOf ⟨out, dur, n, n, n, n⟩ r = n := by
  simp [nextOf_eq_ite]

/-- goN leaves at the east car alone, under `YIELD` also at both (R103, R107). -/
theorem nextOf_goN (pol : BothPolicy) (dur : Nat) (r : Reading) : nextOf (goNRecord pol dur) r =
    if r = 1 ∨ (r = 3 ∧ pol = .yield) then 1 else 0 := by
  obtain rfl | rfl | rfl | rfl := reading_cases r <;> cases pol <;> rfl

/-- goE leaves at the north car alone, under `YIELD` also at both (R105, R107). -/
theorem nextOf_goE (pol : BothPolicy) (dur : Nat) (r : Reading) : nextOf (goERecord pol dur) r =
    if r = 2 ∨ (r = 3 ∧ pol = .yield) then 3 else 2 := by
  obtain rfl | rfl | rfl | rfl := reading_cases r <;> cases pol <;> rfl

theorem nextOf_waitN (dur : Nat) (r : Reading) : nextOf (waitNRecord dur) r = 2 := nextOf_const _ _ _ r

theorem nextOf_waitE (dur : Nat) (r : Reading) : nextOf (waitERecord dur) r = 0 := nextOf_const _ _ _ r

/-! ### The step of a record (R100) -/

/-- A record row whose ports work completes: the selected next state, and the three events in order. -/
theorem exec_record_completes {i : Instr} {rec : Record} {s : State} {n : Nat} (hi : instrRecord i = some rec)
    (hp : PortsWork s) (hn : nextOf rec (inputs s).sensor = n) :
    ∃ t, exec i s = .next t ∧ t.S = n ∧
      t.trace = s.trace ++ [.lightWrite rec.out, .wait rec.dur, .sensorRead (inputs s).sensor] :=
  ⟨_, (exec_record hi s).trans (runRecord_done hp), hn, rfl⟩

/-! ### The transition function (R101, R108) -/

theorem delta_of_readRecord {c : Config} {i : Nat} {rec : Record} (h : readRecord c i = some rec) (r : Reading) :
    delta c i r = some (nextOf rec r) := by
  simp [delta, h]

/-- A state that every reading of a list keeps is kept by the list. -/
theorem deltas_of_fixed {c : Config} {i : Nat} {rs : List Reading} (h : ∀ r ∈ rs, delta c i r = some i) :
    deltas c i rs = some i := by
  induction rs with
  | nil => rfl
  | cons r rs ih =>
    obtain ⟨hr, hrs⟩ := List.forall_mem_cons.1 h
    simp only [deltas, hr, ih hrs]

theorem delta_refConfig_goN (p : RefParams) (r : Reading) :
    delta (refConfig p) 0 r = some (if r = 1 ∨ (r = 3 ∧ p.bothPolicy = .yield) then 1 else 0) := by
  rw [delta_of_readRecord (readRecord_refConfig p).1, nextOf_goN]

theorem delta_refConfig_waitN (p : RefParams) (r : Reading) : delta (refConfig p) 1 r = some 2 := by
  rw [delta_of_readRecord (readRecord_refConfig p).2.1, nextOf_waitN]

theorem delta_refConfig_goE (p : RefParams) (r : Reading) :
    delta (refConfig p) 2 r = some (if r = 2 ∨ (r = 3 ∧ p.bothPolicy = .yield) then 3 else 2) := by
  rw [delta_of_readRecord (readRecord_refConfig p).2.2.1, nextOf_goE]

theorem delta_refConfig_waitE (p : RefParams) (r : Reading) : delta (refConfig p) 3 r = some 0 := by
  rw [delta_of_readRecord (readRecord_refConfig p).2.2.2, nextOf_waitE]

/-! ### The exchange of the roads (R105) -/

theorem mirror_refStates : mirror 0 = 2 ∧ mirror 1 = 3 ∧ mirror 2 = 0 ∧ mirror 3 = 1 := ⟨rfl, rfl, rfl, rfl⟩

/-- Exchanging the roads in a reading exchanges the two cars that are alone and keeps the both-cars reading. -/
theorem swapReading_eq_iff (r : Reading) :
    (swapReading r = 1 ↔ r = 2) ∧ (swapReading r = 2 ↔ r = 1) ∧ (swapReading r = 3 ↔ r = 3) := by
  revert r; decide

/-! ### The lights of the reference table (R109 to R111) -/

/-- Everything a location of the reference table can hold (R108). -/
theorem readRecord_refConfig_cases {p : RefParams} {i : Nat} {rec : Record}
    (h : readRecord (refConfig p) i = some rec) :
    (i = 0 ∧ rec = goNRecord p.bothPolicy p.durGo.toNat) ∨ (i = 1 ∧ rec = waitNRecord p.durWait.toNat) ∨
    (i = 2 ∧ rec = goERecord p.bothPolicy p.durGo.toNat) ∨ (i = 3 ∧ rec = waitERecord p.durWait.toNat) := by
  obtain ⟨h0, h1, h2, h3⟩ := readRecord_refConfig p
  have hi : i < 4 := lt_of_readRecord h
  interval_cases i <;> simp_all

/-- Each pattern of the reference table is safe (R110). -/
theorem safeLights_of_reference {c : Config} (href : Reference c) {i : Nat} {rec : Record}
    (h : readRecord c i = some rec) : SafeLights rec.out := by
  obtain ⟨p, rfl⟩ := href
  obtain ⟨-, rfl⟩ | ⟨-, rfl⟩ | ⟨-, rfl⟩ | ⟨-, rfl⟩ := readRecord_refConfig_cases h
  · exact show SafeLights 0b100001 from ⟨rfl, rfl, .inr rfl⟩
  · exact show SafeLights 0b100010 from ⟨rfl, rfl, .inr rfl⟩
  · exact show SafeLights 0b001100 from ⟨rfl, rfl, .inl rfl⟩
  · exact show SafeLights 0b010100 from ⟨rfl, rfl, .inl rfl⟩

/-- In every state of the invariant the lights of the reference table have a value, and it is safe. -/
theorem exists_safeLights_of_reference {s : State} (href : Reference s.cfg) (hinv : RunInv s) :
    ∃ p, lights s = some p ∧ SafeLights p := by
  obtain ⟨rec, hc⟩ := readRecord_of_lt hinv.cursor
  exact ⟨rec.out, lights_of_current hc, safeLights_of_reference href hc⟩

/-- The reference block runs safely from every state of the invariant: a cycle at a state of the table answers a next
state, and keeps the configuration, the invariant and the form that runs. -/
theorem safeRun_of_reference (n : Nat) {s : State} (href : Reference s.cfg) (hinv : RunInv s) (hb : s.build = .block) :
    SafeRun n s := by
  induction n generalizing s with
  | zero => exact exists_safeLights_of_reference href hinv
  | succ n ih =>
    obtain ⟨rec, hc⟩ := readRecord_of_lt hinv.cursor
    have hstep := step_block hb hc
    exact ⟨exists_safeLights_of_reference href hinv, _, hstep,
      ih (by rwa [step_cfg hstep]) (runInv_of_step hstep) ((step_build hstep).trans hb)⟩

/-- Every pattern the control loop writes is the pattern of a record of the table (42_step_semantics.md R175). -/
theorem exists_record_of_lightWrite_mem {c : Config} {i : Nat} {rs : List Reading} {q : Pattern}
    (h : .lightWrite q ∈ loopTrace c i rs) : ∃ k rec, readRecord c k = some rec ∧ rec.out = q := by
  induction rs generalizing i with
  | nil => simp [loopTrace] at h
  | cons r rs ih =>
    cases hr : readRecord c i with
    | none => simp [loopTrace, hr] at h
    | some rec =>
      simp only [loopTrace, hr, List.mem_cons, Event.lightWrite.injEq, reduceCtorEq, false_or] at h
      rcases h with rfl | hlater
      · exact ⟨i, rec, hr, rfl⟩
      · exact ih hlater

/-- The lights `q` may follow the lights `p` (R109 P5, R111): they are the same, a green gave way to its own road's
yellow, or a yellow to the other road's green, the other road's lights red. -/
def MayFollow (p q : Pattern) : Prop :=
  q = p ∨
  (lit p .north .green = true ∧ lit q .north .yellow = true ∧ lit q .east .red = true) ∨
  (lit p .north .yellow = true ∧ lit q .east .green = true ∧ lit q .north .red = true) ∨
  (lit p .east .green = true ∧ lit q .east .yellow = true ∧ lit q .north .red = true) ∨
  (lit p .east .yellow = true ∧ lit q .north .green = true ∧ lit q .east .red = true)

theorem mayFollow_goN_waitN : MayFollow 0b100001 0b100010 := .inr (.inl ⟨rfl, rfl, rfl⟩)
theorem mayFollow_waitN_goE : MayFollow 0b100010 0b001100 := .inr (.inr (.inl ⟨rfl, rfl, rfl⟩))
theorem mayFollow_goE_waitE : MayFollow 0b001100 0b010100 := .inr (.inr (.inr (.inl ⟨rfl, rfl, rfl⟩)))
theorem mayFollow_waitE_goN : MayFollow 0b010100 0b100001 := .inr (.inr (.inr (.inr ⟨rfl, rfl, rfl⟩)))

/-- The pattern of every successor in the reference table may follow the state's own. -/
theorem mayFollow_of_reference {c : Config} (href : Reference c) {i : Nat} {rec : Record}
    (h : readRecord c i = some rec) (r : Reading) :
    ∃ rec', readRecord c (nextOf rec r) = some rec' ∧ MayFollow rec.out rec'.out := by
  obtain ⟨p, rfl⟩ := href
  obtain ⟨hgoN, hwaitN, hgoE, hwaitE⟩ := readRecord_refConfig p
  obtain ⟨-, rfl⟩ | ⟨-, rfl⟩ | ⟨-, rfl⟩ | ⟨-, rfl⟩ := readRecord_refConfig_cases h
  · rw [nextOf_goN]
    split
    · exact ⟨_, hwaitN, mayFollow_goN_waitN⟩
    · exact ⟨_, hgoN, .inl rfl⟩
  · rw [nextOf_waitN]
    exact ⟨_, hgoE, mayFollow_waitN_goE⟩
  · rw [nextOf_goE]
    split
    · exact ⟨_, hwaitE, mayFollow_goE_waitE⟩
    · exact ⟨_, hgoE, .inl rfl⟩
  · rw [nextOf_waitE]
    exact ⟨_, hgoN, mayFollow_waitE_goN⟩

/-- A cycle of the block without reset stays in its state or enters the state its record selects. -/
theorem step_block_S {s t : State} {rec : Record} (hb : s.build = .block) (hc : current s = some rec)
    (hrst : (inputs s).rst = false) (h : step s = .next t) :
    t.S = s.S ∨ t.S = nextOf rec (inputs s).sensor := by
  rw [step_block hb hc] at h
  cases h
  cases timeUp rec s.CNT
  · left
    cases (inputs s).tick <;> simp [hrst]
  · right
    simp [hrst]

end Sys2Proof.Machine

namespace Sys2Proof
open Machine

/-- Settles O54: each pattern of the table is safe, and the cycles of the block never leave the table. -/
theorem referenceLightsAreSafeInEveryCycle : Obligations.ReferenceLightsAreSafeInEveryCycle :=
  fun n _ => safeRun_of_reference n

/-- Settles O35: the state has a record, and validation has bounded its targets. -/
theorem transitionFunctionIsTotal : Obligations.TransitionFunctionIsTotal := by
  intro c s r hs
  obtain ⟨rec, hr⟩ := readRecord_of_lt hs
  exact ⟨nextOf rec r, delta_of_readRecord hr r, nextOf_lt (record_valid hr).1 r⟩

/-- Settles O51: the fields are those of the four records; P5 is the two outcomes of a go state. -/
theorem prioritySchemeOfTheReferenceTable : Obligations.PrioritySchemeOfTheReferenceTable := by
  intro p
  obtain ⟨hgoN, hwaitN, hgoE, hwaitE⟩ := readRecord_refConfig p
  refine ⟨_, _, _, _, hgoN, hwaitN, hgoE, hwaitE, ⟨rfl, rfl, rfl, rfl⟩, ⟨rfl, rfl⟩,
    fun r => ⟨nextOf_waitN _ r, nextOf_waitE _ r⟩, ⟨rfl, rfl⟩, fun r => ⟨?_, ?_⟩⟩
  · rw [nextOf_goN]
    exact (ite_eq_or_eq ..).symm
  · rw [nextOf_goE]
    exact (ite_eq_or_eq ..).symm

/-- Settles O52, by the four states: the exchanged reading is conflicting demand for the other road exactly when the
reading is for this one. -/
theorem referenceTableIsSymmetric : Obligations.ReferenceTableIsSymmetric := by
  intro p s r hs
  obtain ⟨hone, htwo, hboth⟩ := swapReading_eq_iff r
  interval_cases s
  · simp only [mirror_refStates, delta_refConfig_goN, delta_refConfig_goE, htwo, hboth, Option.map_some,
      apply_ite mirror]
  · simp only [mirror_refStates, delta_refConfig_waitN, delta_refConfig_waitE, Option.map_some]
  · simp only [mirror_refStates, delta_refConfig_goN, delta_refConfig_goE, hone, hboth, Option.map_some,
      apply_ite mirror]
  · simp only [mirror_refStates, delta_refConfig_waitN, delta_refConfig_waitE, Option.map_some]

/-- Settles O53: none of these readings is conflicting demand, so each keeps the go state. -/
theorem goStateHoldsWithoutConflictingDemand : Obligations.GoStateHoldsWithoutConflictingDemand := by
  refine fun p rs => ⟨fun hrs => deltas_of_fixed fun r hr => ?_, fun hrs => deltas_of_fixed fun r hr => ?_⟩
  · rw [delta_refConfig_goN]
    obtain rfl | rfl | ⟨rfl, hpol⟩ := hrs r hr
    · simp
    · simp
    · simp [hpol]
  · rw [delta_refConfig_goE]
    obtain rfl | rfl | ⟨rfl, hpol⟩ := hrs r hr
    · simp
    · simp
    · simp [hpol]

/-- Settles O55: the loop writes only patterns of the table. -/
theorem loopWritesOnlySafePatterns : Obligations.LoopWritesOnlySafePatterns := by
  intro c s rs q href hq
  obtain ⟨k, rec, hr, rfl⟩ := exists_record_of_lightWrite_mem hq
  exact safeLights_of_reference href hr

/-- Settles O56: the cycle stays, with the same lights, or enters a successor, whose lights may follow. -/
theorem greenGivesWayThroughItsOwnYellow : Obligations.GreenGivesWayThroughItsOwnYellow := by
  intro s t href hinv hb hrst h
  obtain ⟨rec, hc⟩ := readRecord_of_lt hinv.cursor
  obtain hS | hS := step_block_S hb hc hrst h
  · have hct : current t = some rec := (current_congr (step_cfg h) hS).trans hc
    exact ⟨_, _, lights_of_current hc, lights_of_current hct, .inl rfl⟩
  · obtain ⟨rec', hr, hfollow⟩ := mayFollow_of_reference href hc (inputs s).sensor
    have hct : current t = some rec' := by rw [current, step_cfg h, hS, hr]
    exact ⟨_, _, lights_of_current hc, lights_of_current hct, hfollow⟩

/-- Settles O15: the row stands for its record, and so does the word the loop reads at `S`. -/
theorem genericRecordRunsOneStep : Obligations.GenericRecordRunsOneStep := by
  refine ⟨fun out dur n3 n2 n1 n0 s hp => ?_, fun s rec hb hc => ?_⟩
  · obtain ⟨t, hexec, hS, htrace⟩ :=
      exec_record_completes (i := .state out dur n3 n2 n1 n0) rfl hp (nextOf_eq_ite _ _)
    exact ⟨t, hexec, hS, htrace, (exec_frame hexec).1⟩
  · rw [step_loop hb hc, exec_record rfl]

/-- Settles O16: each go row runs its record, whose next state the policy and the demand select. -/
theorem goRowsHoldUnlessDemand : Obligations.GoRowsHoldUnlessDemand := fun _ hp =>
  ⟨exec_record_completes (rec := goNRecord .hold 3000) rfl hp (by simp [nextOf_goN]),
    exec_record_completes (rec := goNRecord .yield 3000) rfl hp (by simp [nextOf_goN]),
    exec_record_completes (rec := goERecord .hold 3000) rfl hp (by simp [nextOf_goE]),
    exec_record_completes (rec := goERecord .yield 3000) rfl hp (by simp [nextOf_goE])⟩

/-- Settles O17: each wait row runs its record, whose four entries agree. -/
theorem waitRowsAdvanceUnconditionally : Obligations.WaitRowsAdvanceUnconditionally := fun _ hp =>
  ⟨exec_record_completes rfl hp (nextOf_waitN _ _), exec_record_completes rfl hp (nextOf_waitE _ _)⟩

end Sys2Proof
end

section
/-! The engine operations of 41_engine_operations.md: one operation a cycle (R136 to R140), the cycle function (R141), the
ignored inputs (R142, R143), how long a step lasts (R144 to R147), and that a run never ends. -/

namespace Sys2Proof.Machine

/-! ### The step runs the decoded instruction (R130, 42_step_semantics.md R170) -/

theorem step_of_ctrlVector {s : State} {c : CtrlWord} (hb : s.build = .block) (hv : ctrlVector s = some c) :
    step s = mapNext endCycle (exec (decodeCtrl c) s) := by
  simp [step, fetch, hb, fetchCtrl, hv]

theorem fetch_of_readWord {s : State} {w : Nat} (hb : s.build ≠ .block) (hw : readWord s.cfg s.S = some w) :
    fetch s = .instr (decodeRec s.cfg.widths w) := by
  cases h : s.build with
  | block => exact absurd h hb
  | loop => simp [fetch, h, fetchRecord, hw]
  | hosted => simp [fetch, h, fetchRecord, hw]

theorem step_of_readWord {s : State} {w : Nat} (hb : s.build ≠ .block) (hw : readWord s.cfg s.S = some w) :
    step s = mapNext endCycle (exec (decodeRec s.cfg.widths w) s) := by
  rw [step, fetch_of_readWord hb hw]

/-! ### The effect of an operation (R137 to R140) -/

theorem exec_advance_of_current {s : State} {rec : Record} (hc : current s = some rec) :
    exec .advance s = .next (enter (nextOf rec (inputs s).sensor) s) := by
  simp [exec, execAdvance, nxt, hc]

/-- Where the sum fits `DUR_W` bits, COUNT adds one unit and does nothing else. -/
theorem countUnit_of_fits {s : State} (h : s.CNT + 1 < 2 ^ s.cfg.durW) : countUnit s = { s with CNT := s.CNT + 1 } := by
  rw [countUnit, Nat.mod_eq_of_lt h]

/-- While a hold runs the sum of COUNT fits: the duration has `DUR_W` bits (R146). -/
theorem count_fits_of_running {s : State} {rec : Record} (hc : current s = some rec) (hlt : s.CNT < rec.dur) :
    s.CNT + 1 < 2 ^ s.cfg.durW := by
  have hdur : rec.dur < 2 ^ s.cfg.durW := (record_valid hc).2.2
  omega

/-- RESET, COUNT and IDLE do the same whatever the inputs are. -/
theorem exec_ignores_ins {i : Instr} (hi : i = .reset ∨ i = .count ∨ i = .idle) (s : State) (l : List Inputs) :
    exec i { s with ins := l } = mapNext (fun t => { t with ins := l }) (exec i s) := by
  obtain rfl | rfl | rfl := hi
  · rfl
  · rfl
  · rfl

/-! ### The cycle of an operation (R136)

`step_block_running` is the cycle of COUNT and of IDLE. -/

theorem timeUp_eq_true {rec : Record} {cnt : Nat} : timeUp rec cnt = true ↔ rec.dur ≤ cnt := by simp [timeUp]

/-- A cycle with `rst = 1` is RESET, also where the current record is undefined (R137). -/
theorem step_block_reset {s : State} (hb : s.build = .block) (hrst : (inputs s).rst = true) :
    step s = .next (endCycle (enter s.cfg.start s)) := by
  cases hc : current s with
  | none => simp [step_block_undefined hb hc, hrst]
  | some rec => simp [step_block hb hc, hrst]

/-- A cycle without reset in which the duration has elapsed is ADVANCE, whatever `tick` is (R138). -/
theorem step_block_advance {s : State} {rec : Record} (hb : s.build = .block) (hc : current s = some rec)
    (hrst : (inputs s).rst = false) (hle : rec.dur ≤ s.CNT) :
    step s = .next (endCycle (enter (nextOf rec (inputs s).sensor) s)) := by
  simp [step_block hb hc, hrst, timeUp_eq_true.2 hle]

theorem step_block_reset_queued {s : State} {i : Inputs} {rest : List Inputs} (hb : s.build = .block)
    (hins : s.ins = i :: rest) (hrst : i.rst = true) :
    step s = .next { s with S := s.cfg.start, CNT := 0, ins := rest, now := s.now + 1 } := by
  rw [step_block_reset hb (by rwa [inputs_cons hins])]
  simp [endCycle, enter, hins]

theorem step_block_advance_queued {s : State} {rec : Record} {i : Inputs} {rest : List Inputs} (hb : s.build = .block)
    (hc : current s = some rec) (hins : s.ins = i :: rest) (hrst : i.rst = false) (hle : rec.dur ≤ s.CNT) :
    step s = .next { s with S := nextOf rec i.sensor, CNT := 0, ins := rest, now := s.now + 1 } := by
  rw [step_block_advance hb hc (by rwa [inputs_cons hins]) hle, inputs_cons hins]
  simp [endCycle, enter, hins]

/-! ### The cycle function and the output function (R141) -/

theorem cycle_of_readRecord {c : Config} {q : Nat × Nat} {rec : Record} (h : readRecord c q.1 = some rec) (i : Inputs) :
    cycle c q i = some (
      if i.rst then (c.start, 0)
      else if timeUp rec q.2 then (nextOf rec i.sensor, 0)
      else if i.tick then (q.1, q.2 + 1) else q) := by
  simp only [cycle, h, apply_ite some]

theorem cycle_of_undefined {c : Config} {q : Nat × Nat} (h : readRecord c q.1 = none) (i : Inputs) :
    cycle c q i = if i.rst then some (c.start, 0) else none := by
  simp only [cycle, h]

/-- Where the current record is defined, the cycle function gives the registers after the step, from any `CNT`: COUNT is
selected only below the duration, where it does not wrap. -/
theorem step_block_eq_cycle {s : State} {rec : Record} (hb : s.build = .block) (hc : current s = some rec) :
    ∃ q, cycle s.cfg (s.S, s.CNT) (inputs s) = some q ∧
      step s = .next { s with S := q.1, CNT := q.2, ins := s.ins.tail, now := s.now + 1 } := by
  refine ⟨_, cycle_of_readRecord (q := (s.S, s.CNT)) hc (inputs s), ?_⟩
  cases hrst : (inputs s).rst with
  | true => exact step_block_reset hb hrst
  | false =>
    cases hup : timeUp rec s.CNT with
    | true => exact step_block_advance hb hc hrst (timeUp_eq_true.1 hup)
    | false =>
      have hlt : s.CNT < rec.dur := timeUp_eq_false.1 hup
      rw [step_block_running hb hc hrst hlt, countUnit_of_fits (count_fits_of_running hc hlt)]
      cases (inputs s).tick <;> rfl

theorem sample_of_current {s : State} {rec : Record} (hc : current s = some rec) :
    sample s = some (decide (rec.dur ≤ s.CNT)) := by
  simp [sample, expired, timeUp, hc]

theorem outPorts_of_current {s : State} {rec : Record} (hc : current s = some rec) :
    outPorts s.cfg (s.S, s.CNT) = some (rec.out, decide (rec.dur ≤ s.CNT)) :=
  congrArg (Option.map _) hc

/-! ### Runs -/

theorem core_run_one (M : Host.Core) (s : M.State) : M.run 1 s = M.step s := by
  cases h : M.step s with
  | next t => exact core_run_succ M 0 h
  | fault r => simp [Host.Core.run, h]
  | refused r => simp [Host.Core.run, h]

/-- A run is extended at its end by a step. -/
theorem run_succ_of_run {n : Nat} {s t : State} (h : Host.Core.run core n s = .next t) :
    Host.Core.run core (n + 1) s = step t := by
  induction n generalizing s with
  | zero =>
    cases h
    exact core_run_one core t
  | succ n ih =>
    obtain ⟨u, hstep, hrun⟩ := run_succ_next h
    rw [run_succ_of_step (n + 1) hstep, ih hrun]

/-- Outside a hosted build a step from a state of the table answers a next state (60_exceptions.md R207). -/
theorem exists_step_of_runInv {s : State} (hinv : RunInv s) (hb : s.build ≠ .hosted) : ∃ t, step s = .next t := by
  obtain ⟨rec, hc⟩ := readRecord_of_lt hinv.cursor
  by_cases hblock : s.build = .block
  · exact ⟨_, step_block hblock hc⟩
  · rw [step_loop hblock hc, runRecord_done (portsWork_of_build hb)]
    exact ⟨_, rfl⟩

/-! ### How long a step lasts (R145) -/

theorem ticks_append (l m : List Inputs) : ticks (l ++ m) = ticks l + ticks m := by
  simp [ticks]

/-- If the last cycle is a tick, every shorter part holds fewer ticks. -/
theorem ticks_take_lt {hold : List Inputs} (hlast : ∀ pre last, hold = pre ++ [last] → last.tick = true) {k : Nat}
    (hk : k < hold.length) : ticks (hold.take k) < ticks hold := by
  obtain rfl | ⟨pre, last, rfl⟩ := hold.eq_nil_or_concat'
  · simp at hk
  · have htake : (pre ++ [last]).take k = pre.take k := List.take_append_of_le_length (by simpa using hk)
    have hpre : ticks (pre.take k) + ticks (pre.drop k) = ticks pre := by rw [← ticks_append, List.take_append_drop]
    have htick : ticks [last] = 1 := by simp [ticks, hlast pre last rfl]
    rw [htake, ticks_append]
    omega

/-- So the whole number of ticks is reached with the last cycle and not before. -/
theorem ticks_le_ticks_take {hold : List Inputs} (hlast : ∀ pre last, hold = pre ++ [last] → last.tick = true) {k : Nat}
    (hk : k ≤ hold.length) : ticks hold ≤ ticks (hold.take k) ↔ k = hold.length := by
  obtain hlt | rfl := hk.lt_or_eq
  · have hfewer := ticks_take_lt hlast hlt
    omega
  · simp

/-- The block `k` queued cycles further into a hold. -/
def held (s : State) (k : Nat) : State :=
  { s with CNT := s.CNT + ticks (s.ins.take k), ins := s.ins.drop k, now := s.now + k }

/-- The next cycle of a hold that the ticks so far have not completed. -/
theorem step_held {s : State} {rec : Record} {k : Nat} (hb : s.build = .block) (hc : current s = some rec)
    (hk : k < s.ins.length) (hrst : s.ins[k].rst = false) (hlt : s.CNT + ticks (s.ins.take k) < rec.dur) :
    step (held s k) = .next (held s (k + 1)) := by
  have hins : (held s k).ins = s.ins[k] :: s.ins.drop (k + 1) := List.drop_eq_getElem_cons hk
  have hticks : ticks (s.ins.take (k + 1)) = ticks (s.ins.take k) + s.ins[k].tick.toNat := by
    rw [← List.take_append_getElem hk, ticks_append, ticks_cons]
    rfl
  rw [step_block_running_queued (s := held s k) hb hc hins hrst hlt]
  simp [held, hticks, Nat.add_assoc]

/-- A hold runs on through queued cycles without reset as long as those before the last do not complete the duration; the
last may complete it. -/
theorem run_held {s : State} {rec : Record} {k : Nat} (hb : s.build = .block) (hc : current s = some rec)
    (hlen : k ≤ s.ins.length) (hrst : ∀ i ∈ s.ins.take k, i.rst = false)
    (hlt : ∀ j < k, s.CNT + ticks (s.ins.take j) < rec.dur) : Host.Core.run core k s = .next (held s k) := by
  induction k with
  | zero => rfl
  | succ k ih =>
    rw [← List.take_append_getElem hlen] at hrst
    obtain ⟨hrsts, hrst⟩ := List.forall_mem_append.1 hrst
    rw [run_succ_of_run (ih (Nat.le_of_succ_le hlen) hrsts fun j hj => hlt j (Nat.lt_succ_of_lt hj))]
    exact step_held hb hc hlen (hrst _ (List.mem_singleton_self _)) (hlt k k.lt_succ_self)

end Sys2Proof.Machine

namespace Sys2Proof
open Machine

/-- Settles O34, by induction on the number of steps: a step from a state of the invariant answers a next state, which
meets the invariant and runs in the same form. -/
theorem everyRunGoesOn : Obligations.EveryRunGoesOn := by
  intro n
  induction n with
  | zero => exact fun s hinv _ => ⟨s, run_zero s, hinv⟩
  | succ n ih =>
    intro s hinv hb
    obtain ⟨t, hstep⟩ := exists_step_of_runInv hinv hb
    rw [run_succ_of_step n hstep]
    exact ih t (runInv_of_step hstep) (by rwa [step_build hstep])

/-- Settles O24: with a record at `S` both are the four-way choice; without one both are RESET or nothing. -/
theorem stepIsTheCycleFunction : Obligations.StepIsTheCycleFunction := by
  intro s hb _
  cases hc : current s with
  | none =>
    rw [cycle_of_undefined (q := (s.S, s.CNT)) hc, step_block_undefined hb hc]
    cases (inputs s).rst with
    | true => simp [endCycle, enter]
    | false => simp
  | some rec =>
    obtain ⟨q, hcycle, hstep⟩ := step_block_eq_cycle hb hc
    simp [hcycle, hstep]

/-- Settles O28: RESET and the cycles of a running hold have next states in which no reading occurs, and the ports do not
read the queue. -/
theorem sensorIsIgnoredOutsideAdvance : Obligations.SensorIsIgnoredOutsideAdvance := by
  intro s i rest rec r hb hins hc hop
  refine ⟨?_, rfl, rfl⟩
  obtain hrst | hrst := Bool.eq_false_or_eq_true i.rst
  · rw [step_block_reset_queued hb hins hrst]
    exact step_block_reset_queued hb rfl hrst
  · have hlt : s.CNT < rec.dur := by simpa [hrst] using hop
    rw [step_block_running_queued hb hc hins hrst hlt]
    exact step_block_running_queued (i := { i with sensor := r }) hb hc rfl hrst hlt

/-- Settles O29: RESET and ADVANCE have next states in which no tick occurs, with `CNT = 0`. -/
theorem tickIsLostInAdvanceAndReset : Obligations.TickIsLostInAdvanceAndReset := by
  intro s i rest rec b hb hins hc hop
  obtain hrst | hrst := Bool.eq_false_or_eq_true i.rst
  · rw [step_block_reset_queued hb hins hrst]
    exact ⟨step_block_reset_queued hb rfl hrst, _, rfl, rfl⟩
  · have hle : rec.dur ≤ s.CNT := by simpa [hrst] using hop
    rw [step_block_advance_queued hb hc hins hrst hle]
    exact ⟨step_block_advance_queued (i := { i with tick := b }) hb hc rfl hrst hle, _, rfl, rfl⟩

/-- Settles O38: the hold runs through its cycles, reaching the duration with the last of them, and the next cycle is
ADVANCE. -/
theorem stepLastsUntilTheLastTickAndOneCycle : Obligations.StepLastsUntilTheLastTickAndOneCycle := by
  intro s rec hold a rest hb hc hCNT hins hrst harst hticks hlast
  have htake : ∀ k ≤ hold.length, s.ins.take k = hold.take k := fun k hk => by
    rw [hins, List.take_append_of_le_length hk]
  have hheld : ∀ k ≤ hold.length, (held s k).CNT = ticks (hold.take k) := fun k hk => by
    simp [held, hCNT, htake k hk]
  have hrun : ∀ k ≤ hold.length, Host.Core.run core k s = .next (held s k) := fun k hk => by
    refine run_held hb hc ?_ ?_ fun j hj => ?_
    · simp only [hins, List.length_append]
      omega
    · rw [htake k hk]
      exact fun i hi => hrst i (List.mem_of_mem_take hi)
    · have hlt := ticks_take_lt hlast (hj.trans_le hk)
      rwa [hCNT, Nat.zero_add, htake j (hj.le.trans hk), ← hticks]
  refine ⟨?_, fun k hk => ⟨held s k, hrun k hk, rfl, rfl, ?_⟩⟩
  · have hup : rec.dur ≤ (held s hold.length).CNT := by simp [hheld, hticks]
    have hend : (held s hold.length).ins = a :: rest := by simp [held, hins]
    rw [run_succ_of_run (hrun _ le_rfl), step_block_advance_queued (s := held s hold.length) hb hc hend harst hup]
    rfl
  · rw [sample_of_current (s := held s k) hc, hheld k hk, ← hticks]
    exact congrArg some (decide_eq_decide.2 (ticks_le_ticks_take hlast hk))

/-- Settles O10: RESET reads no record, so it asks nothing of the old state. -/
theorem resetLoadsStartAndClearsCount : Obligations.ResetLoadsStartAndClearsCount :=
  ⟨fun _ => rfl, fun _ hb hrst => ⟨step_block_reset hb hrst, fun _ hr => lights_of_current hr⟩⟩

/-- Settles O11: validation bounds the state selected; the other operations do not look at the inputs. -/
theorem advanceEntersTheSampledState : Obligations.AdvanceEntersTheSampledState := by
  refine ⟨fun s rec hc => ⟨exec_advance_of_current hc, fun hb => step_block_advance hb hc⟩, fun s hinv => ?_,
    fun i s t hi h => ?_, fun i s l hi => exec_ignores_ins hi s l⟩
  · obtain ⟨rec, hc⟩ := readRecord_of_lt hinv.cursor
    exact ⟨rec, hc, nextOf_current_lt hc⟩
  · obtain rfl | rfl := hi
    · exact exec_count_S h
    · rw [exec_idle_eq h]

/-- Settles O12: below a duration of `DUR_W` bits the sum fits. -/
theorem countAddsOneUnit : Obligations.CountAddsOneUnit := by
  refine ⟨fun s hfits => congrArg _ (countUnit_of_fits hfits), fun s rec hb hc hrst hlt htick => ?_⟩
  have hfits := count_fits_of_running hc hlt
  exact ⟨hfits, by simp [step_block_running hb hc hrst hlt, htick, countUnit_of_fits hfits]⟩

/-- Settles O14: with a hold running and no tick, nothing but the end of the cycle is left of the step. -/
theorem idleWritesNothing : Obligations.IdleWritesNothing :=
  ⟨fun _ => rfl, fun s rec hb hc hrst hlt htick => by simp [step_block_running hb hc hrst hlt, htick]⟩

/-- Settles O22: the fetch is the decoder, applied to the control vector or to the word at `S`. -/
theorem stepRunsTheDecodedInstruction : Obligations.StepRunsTheDecodedInstruction := fun _ =>
  ⟨fun _ => step_of_ctrlVector, fun _ => step_of_readWord, rfl, rfl, rfl, rfl, rfl, rfl, rfl⟩

/-- Settles O23: the vector of the cycle decodes by priority. -/
theorem oneOperationPerCycleByPriority : Obligations.OneOperationPerCycleByPriority := by
  intro s rec hb hc
  rw [step_of_ctrlVector hb (ctrlVector_of_current hc), decodeCtrl_ctrlOf]
  simp [timeUp]

/-- Settles O25: the ports are read off the current record, which `S` and the table determine. -/
theorem outputsAreMooreOutputs : Obligations.OutputsAreMooreOutputs :=
  ⟨fun _ _ hc => ⟨lights_of_current hc, sample_of_current hc, outPorts_of_current hc⟩,
    fun s t hcfg hS => by rw [lights, current_congr hcfg hS, lights]⟩

/-- Settles O39: the cycle is ADVANCE into the same state, so the record and the lights stay. -/
theorem selfLoopHoldsTheFullDurationAgain : Obligations.SelfLoopHoldsTheFullDurationAgain := by
  intro s rec hb hc hrst hle hself
  have hstep := step_block_advance hb hc hrst hle
  rw [hself] at hstep
  refine ⟨_, hstep, rfl, rfl, rfl, ?_⟩
  rw [sample_of_current (s := endCycle (enter s.S s)) hc]
  simp

end Sys2Proof
end

section
/-! The step semantics of 42_step_semantics.md: validation and construction (R177, R178), the transition function (R171,
R172), the control loop as `run_n_steps` performs it (R174, R175, R181), and that the block refines it (R176). -/

namespace Sys2Proof.Machine

/-! ### Construction (R178) -/

/-- What construction gives: only for a table that `validate` accepts, the block of those parameters and records. -/
theorem construct_eq_ok {p : Params} {raw : List RawRecord} {c : Config} (h : construct p raw = .ok c) :
    validate p.nstates p.durW p.start raw = none ∧ c.toParams = p ∧ c.tbl = raw.map recordOf := by
  cases hv : validate p.nstates p.durW p.start raw with
  | some e => simp [construct_error hv] at h
  | none =>
    rw [construct_ok hv] at h
    cases h
    exact ⟨rfl, rfl, rfl⟩

/-- The record made of a raw record that passes its checks has exactly its four entries: none is missing. -/
theorem next_recordOf {n w s : Nat} {r : RawRecord} (h : recordError n w s r = none) :
    r.next[0]? = some (recordOf r).next0 ∧ r.next[1]? = some (recordOf r).next1 ∧
    r.next[2]? = some (recordOf r).next2 ∧ r.next[3]? = some (recordOf r).next3 := by
  have hentry : ∀ k < 4, r.next[k]? = some (r.next.getD k 0) := fun k hk => by
    obtain ⟨t, ht, -⟩ := ((recordError_none ..).1 h).1 k hk
    simp [List.getD, ht]
  exact ⟨hentry 0 (by decide), hentry 1 (by decide), hentry 2 (by decide), hentry 3 (by decide)⟩

/-- The word at a location has `REC_W` bits and decodes to the record there (20_memory.md R41, 30_encoding.md R80). -/
theorem readWord_of_readRecord {c : Config} {i : Nat} {rec : Record} (h : readRecord c i = some rec) :
    ∃ w, readWord c i = some w ∧ w < 2 ^ recW c.widths ∧ decodeRecord c.widths w = rec :=
  ⟨_, congrArg (Option.map _) h, encodeRecord_lt _ _ (record_fits h), decodeRecord_encodeRecord _ _ (record_fits h)⟩

theorem map_recordOf_map_rawOf (l : List Record) : (l.map rawOf).map recordOf = l := by
  rw [List.map_map]
  exact List.map_id l

/-- Construction from the parameters and the table of a configuration gives it again. -/
theorem construct_toParams_tbl (c : Config) : construct c.toParams (c.tbl.map rawOf) = .ok c := by
  rw [construct_ok c.valid]
  obtain ⟨p, tbl, -⟩ := c
  simp only [map_recordOf_map_rawOf]

/-! ### The transition function over a list of readings (R171, R174, R175) -/

theorem nextState_of_readRecord {c : Config} {i n : Nat} {r : Reading} {rec : Record} (hd : delta c i r = some n)
    (hr : readRecord c n = some rec) : nextState c i r = some (n, rec.out, rec.dur) := by
  simp [nextState, hd, hr]

theorem deltas_cons {c : Config} {i : Nat} {rec : Record} (h : readRecord c i = some rec) (r : Reading)
    (rs : List Reading) : deltas c i (r :: rs) = deltas c (nextOf rec r) rs := by
  simp only [deltas, delta_of_readRecord h]

theorem loopTrace_cons {c : Config} {i : Nat} {rec : Record} (h : readRecord c i = some rec) (r : Reading)
    (rs : List Reading) : loopTrace c i (r :: rs) =
      [.lightWrite rec.out, .wait rec.dur, .sensorRead r] ++ loopTrace c (nextOf rec r) rs := by
  simp [loopTrace, h]

/-! ### The embedded loop (R174, R175) -/

/-- The control loop after a completed iteration over a record. -/
def iterated (rec : Record) (s : State) : State :=
  { s with
    S := nextOf rec (inputs s).sensor
    CNT := 0
    ins := s.ins.tail
    now := s.now + 1
    trace := s.trace ++ [.lightWrite rec.out, .wait rec.dur, .sensorRead (inputs s).sensor] }

/-- Every iteration of the embedded loop at a state of the table completes. -/
theorem step_embedded {s : State} {rec : Record} (hb : s.build = .loop) (hc : current s = some rec) :
    step s = .next (iterated rec s) := by
  rw [step_loop (by simp [hb]) hc, runRecord_done (portsWork_of_build (by simp [hb]))]
  rfl

/-- An iteration of the embedded loop that answers a next state had a record to run. -/
theorem step_embedded_next {s t : State} (hb : s.build = .loop) (h : step s = .next t) :
    ∃ rec, current s = some rec ∧ t = iterated rec s := by
  cases hc : current s with
  | none => simp [step_loop_undefined (s := s) (by simp [hb]) hc] at h
  | some rec =>
    rw [step_embedded hb hc] at h
    cases h
    exact ⟨rec, rfl, rfl⟩

/-- `run_n_steps` on the embedded loop performs the same iteration as the machine. -/
theorem runLoop_succ_embedded {s : State} {rec : Record} (hb : s.build = .loop) (hc : current s = some rec)
    (n i : Nat) : runLoop (n + 1) i s = runLoop n (i + 1) (iterated rec s) := by
  simp only [runLoop, hc, loopStep_done (rec := rec) (portsWork_of_build (s := s) (by simp [hb]))]
  rfl

/-- From a state of the table `run_n_steps` on the embedded loop ends without error, in the state in which `n` steps of
the machine end, whatever the first iteration is numbered. -/
theorem runLoop_embedded (n i : Nat) {s : State} (hS : s.S < s.cfg.nstates) (hb : s.build = .loop) :
    (runLoop n i s).ended = .done ∧ Host.Core.run core n s = .next (runLoop n i s).engine := by
  induction n generalizing i s with
  | zero => exact ⟨rfl, rfl⟩
  | succ n ih =>
    obtain ⟨rec, hc⟩ := readRecord_of_lt hS
    rw [runLoop_succ_embedded hb hc, run_succ_of_step n (step_embedded hb hc)]
    exact ih (i + 1) (nextOf_current_lt hc _) hb

/-- The same for `run_n_steps` as a call. -/
theorem runNSteps_embedded (n : Nat) {s : State} (hS : s.S < s.cfg.nstates) (hb : s.build = .loop) :
    (runNSteps n s).ended = .done ∧ Host.Core.run core n s = .next (runNSteps n s).engine :=
  runLoop_embedded n 0 hS hb

/-- A run of any length keeps the form that runs. -/
theorem run_build {n : Nat} {s t : State} (h : Host.Core.run core n s = .next t) : t.build = s.build := by
  induction n generalizing s with
  | zero => cases h; rfl
  | succ n ih =>
    obtain ⟨u, hstep, hrun⟩ := run_succ_next h
    exact (ih hrun).trans (step_build hstep)

/-- Where `n` iterations of the embedded loop on queued readings arrive, and the events they append. -/
theorem run_embedded {n : Nat} {s t : State} (hb : s.build = .loop) (hlen : n ≤ s.ins.length)
    (h : Host.Core.run core n s = .next t) :
    deltas s.cfg s.S ((s.ins.take n).map fun i => i.sensor) = some t.S ∧
    t.trace = s.trace ++ loopTrace s.cfg s.S ((s.ins.take n).map fun i => i.sensor) := by
  induction n generalizing s with
  | zero =>
    cases h
    simp [deltas, loopTrace]
  | succ n ih =>
    obtain ⟨u, hstep, hrun⟩ := run_succ_next h
    obtain ⟨rec, hc, rfl⟩ := step_embedded_next hb hstep
    cases hins : s.ins with
    | nil => simp [hins] at hlen
    | cons i rest =>
      have hrest : (iterated rec s).ins = rest := congrArg List.tail hins
      obtain ⟨hS, htrace⟩ := ih (s := iterated rec s) hb (by simpa [hrest, hins] using hlen) hrun
      rw [hrest] at hS htrace
      rw [List.take_succ_cons, List.map_cons, deltas_cons hc, loopTrace_cons hc, ← List.append_assoc,
        ← inputs_cons hins]
      exact ⟨hS, htrace⟩

/-- After an iteration the software light port shows the pattern of the record that ran (R181). -/
theorem lightPort_iterated (rec : Record) (s : State) : lightPort (iterated rec s) = some rec.out := by
  simp [lightPort, iterated]

/-! ### The block and the loop (R176) -/

/-- A cycle of the block without reset samples the sensor exactly if the hold has elapsed. -/
theorem sampled_succ {s t : State} {rec : Record} (n : Nat) (hc : current s = some rec) (hrst : (inputs s).rst = false)
    (h : step s = .next t) :
    sampled (n + 1) s = if rec.dur ≤ s.CNT then (inputs s).sensor :: sampled n t else sampled n t := by
  have hadvance : ctrlVector s = some (ctrlOf false true (inputs s).tick) ↔ rec.dur ≤ s.CNT := by
    rw [ctrlVector_of_current hc, hrst, Option.some_inj]
    refine ⟨fun heq => timeUp_eq_true.1 (ctrlOf_inj heq).2.1, fun hle => by rw [timeUp_eq_true.2 hle]⟩
  simp only [sampled, h, hadvance]

/-- The cursor of a run of the block without reset is where the transition function arrives on the sampled readings: an
ADVANCE is one application, and every other cycle keeps the cursor. -/
theorem deltas_sampled {n : Nat} {s t : State} (hinv : RunInv s) (hb : s.build = .block) (hrst : NoReset n s)
    (h : Host.Core.run core n s = .next t) : deltas s.cfg s.S (sampled n s) = some t.S := by
  induction n generalizing s with
  | zero =>
    cases h
    rfl
  | succ n ih =>
    obtain ⟨hrst, hrsts⟩ := hrst
    obtain ⟨u, hstep, hrun⟩ := run_succ_next h
    obtain ⟨rec, hc⟩ := readRecord_of_lt hinv.cursor
    have hlater : deltas u.cfg u.S (sampled n u) = some t.S :=
      ih (runInv_of_step hstep) ((step_build hstep).trans hb) (hrsts u hstep) hrun
    rw [step_cfg hstep] at hlater
    rw [sampled_succ n hc hrst hstep]
    split
    case isTrue hle =>
      rw [step_block_advance hb hc hrst hle] at hstep
      cases hstep
      rwa [deltas_cons hc]
    case isFalse hlt =>
      have hS : u.S = s.S := (onlyResetAndAdvanceMoveTheCursor s u rec hb hc hrst (Nat.not_le.1 hlt) hstep).1
      rwa [hS] at hlater

end Sys2Proof.Machine

namespace Sys2Proof
open Machine

/-- Settles O40: the block's cursor is the transition function over the sampled readings, and so is the loop's over its
queue, which holds the same readings; the lights follow from the cursor and the table. -/
theorem blockRefinesTheControlLoop : Obligations.BlockRefinesTheControlLoop := by
  intro n s t hinv hb hrst h
  have hblock := deltas_sampled hinv hb hrst h
  refine ⟨hblock, fun u hcfg hub hS hins => ?_⟩
  have hlen : (sampled n s).length = u.ins.length := by rw [← hins, List.length_map]
  have hrun := (runNSteps_embedded u.ins.length (by rw [hcfg, hS]; exact hinv.cursor) hub).2
  have hloop := (run_embedded hub le_rfl hrun).1
  rw [List.take_length, hins, hcfg, hS, hblock, Option.some_inj] at hloop
  rw [hlen]
  have htable : (runNSteps u.ins.length u).engine.cfg = t.cfg := by rw [run_cfg hrun, hcfg, run_cfg h]
  exact ⟨_, hrun, hloop.symm, outputsAreMooreOutputs.2 _ t htable hloop.symm⟩

/-- Settles O41: the call ends where `n` steps of the machine end, and those iterate the transition function. -/
theorem runNStepsIteratesDelta : Obligations.RunNStepsIteratesDelta := by
  intro n s hinv hb hlen
  obtain ⟨hended, hrun⟩ := runNSteps_embedded n hinv.cursor hb
  obtain ⟨hS, htrace⟩ := run_embedded hb hlen hrun
  refine ⟨hended, hrun, hS, htrace, ?_⟩
  rintro rfl
  rfl

/-- Settles O43: the last of the `n + 1` iterations runs the record of the state reached after `n`. -/
theorem softwareLightPortLagsTheCursor : Obligations.SoftwareLightPortLagsTheCursor := by
  intro n s hinv hb hlen
  have hrun := (runNSteps_embedded n hinv.cursor hb).2
  have hrun' := (runNSteps_embedded (n + 1) hinv.cursor hb).2
  have hstep := (run_succ_of_run hrun).symm.trans hrun'
  obtain ⟨rec, hc, hlast⟩ := step_embedded_next ((run_build hrun).trans hb) hstep
  rw [current, run_cfg hrun] at hc
  refine ⟨_, rec, (run_embedded hb (Nat.le_of_succ_le hlen) hrun).1, hc, ?_, (run_embedded hb hlen hrun').1⟩
  rw [hlast, lightPort_iterated]

/-- Settles O45: the scan finds no error exactly if no record has one. -/
theorem validateAcceptsExactlyTheLegalTables : Obligations.ValidateAcceptsExactlyTheLegalTables := by
  intro n w st raw
  simp only [validate_none, recordError_none, List.mem_iff_getElem?, forall_exists_index]
  rw [forall_comm]

/-- Settles O48: the block has the parameters and the records made of the table, which validation has found complete; a
location's word is the encoding of its record. -/
theorem constructionBuildsTheGivenTable : Obligations.ConstructionBuildsTheGivenTable := by
  refine fun p raw => ⟨⟨fun hv => ⟨_, construct_ok hv⟩, fun ⟨_, h⟩ => (construct_eq_ok h).1⟩, fun c h => ?_⟩
  obtain ⟨hv, hp, htbl⟩ := construct_eq_ok h
  refine ⟨hp, fun i r hr => ?_⟩
  have hrec : readRecord c i = some (recordOf r) := by simp [readRecord, htbl, hr]
  obtain ⟨-, -, -, hchecks⟩ := (validate_none ..).1 hv
  exact ⟨recordOf r, hrec, readWord_of_readRecord hrec, rfl, rfl, next_recordOf (hchecks i r hr)⟩

/-- Settles O49: construction gives the configuration whose parameters and table these are. -/
theorem referenceTableIsAdmitted : Obligations.ReferenceTableIsAdmitted := fun p =>
  ⟨validate_refTable p, construct_toParams_tbl (refConfig p)⟩

/-- Settles O26: the configuration of a state carries the proof that its table is valid. -/
theorem invalidTableNeverRuns : Obligations.InvalidTableNeverRuns := by
  refine ⟨fun _ _ _ => construct_error, fun s e he => ?_, fun s => tableWf_config s.cfg⟩
  rw [s.cfg.valid] at he
  cases he

/-- Settles O44: the next state is a state of the table, so it has a record. -/
theorem nextStateDescribesTheReturnedState : Obligations.NextStateDescribesTheReturnedState := by
  intro c s r hs
  obtain ⟨n, hd, hn⟩ := transitionFunctionIsTotal c s r hs
  obtain ⟨rec, hr⟩ := readRecord_of_lt hn
  exact ⟨n, rec, hd, hr, nextState_of_readRecord hd hr⟩

/-- Settles O50: the four records of the reference table, at every reading. -/
theorem referenceTransitions : Obligations.ReferenceTransitions := fun p =>
  ⟨delta_refConfig_goN p, delta_refConfig_waitN p, delta_refConfig_goE p, delta_refConfig_waitE p⟩

end Sys2Proof
end

section
/-! The exceptions of 60_exceptions.md: the failing ports of a hosted build (R206), that nothing else stops a step (R207),
and the order of the validation scan (R203). -/

namespace Sys2Proof.Machine

/-! ### A failing port of a hosted build (R206) -/

/-- The ports work exactly outside a hosted build and where no failure is injected. -/
theorem portsWork_iff (s : State) : PortsWork s ↔ s.build ≠ .hosted ∨ (inputs s).portFault = none := by
  by_cases hb : s.build = .hosted
  · rcases hf : (inputs s).portFault with _ | _ | _ <;> simp [PortsWork, portFails, hb, hf]
  · simp [portsWork_of_build hb, hb]

/-- What an iteration over a record performs before it comes to a port. -/
def eventsBefore (rec : Record) : Port → List Event
  | .light => []
  | .sensor => [.lightWrite rec.out, .wait rec.dur]

/-- An iteration that a failing port aborts performs what comes before that port and nothing else. -/
theorem loopStep_aborted {s : State} {p : Port} (hb : s.build = .hosted) (hf : (inputs s).portFault = some p)
    (rec : Record) : loopStep rec s = ({ s with trace := s.trace ++ eventsBefore rec p }, some p) := by
  cases p with
  | light =>
    have hlight : portFails s .light = true := by simp [portFails, hb, hf]
    rw [loopStep, if_pos hlight, eventsBefore, List.append_nil]
  | sensor => simp [loopStep, portFails, hb, hf, record, eventsBefore]

theorem runRecord_aborted {s : State} {p : Port} (hb : s.build = .hosted) (hf : (inputs s).portFault = some p)
    (rec : Record) : runRecord rec s = .fault (.portFailure s.now p) := by
  rw [runRecord, loopStep_aborted hb hf]

/-! ### `run_n_steps` with failures (R206, 42_step_semantics.md R174) -/

/-- Where the ports work `run_n_steps` goes on from the completed iteration. -/
theorem runLoop_succ_completed {s : State} {rec : Record} (hp : PortsWork s) (hc : current s = some rec) (n i : Nat) :
    runLoop (n + 1) i s = runLoop n (i + 1) (iterated rec s) := by
  simp only [runLoop, hc, loopStep_done hp]
  rfl

/-- Where a port fails `run_n_steps` ends with the aborted iteration. -/
theorem runLoop_succ_aborted {s : State} {rec : Record} {p : Port} (hb : s.build = .hosted)
    (hf : (inputs s).portFault = some p) (hc : current s = some rec) (n i : Nat) :
    runLoop (n + 1) i s =
      ⟨endCycle { s with trace := s.trace ++ eventsBefore rec p }, .portFailure i p⟩ := by
  simp only [runLoop, hc, loopStep_aborted hb hf]

/-- Where `run_n_steps` of a hosted build ends if the iterations on the queued inputs `good` complete and the next one,
still within the count, has a failing port, whatever the first iteration is numbered. -/
theorem runLoop_stops {good rest : List Inputs} {bad : Inputs} {p : Port} {n : Nat} (i : Nat) {s : State}
    (hS : s.S < s.cfg.nstates) (hb : s.build = .hosted) (hins : s.ins = good ++ bad :: rest)
    (hgood : ∀ j ∈ good, j.portFault = none) (hbad : bad.portFault = some p) (hn : good.length < n) :
    (runLoop n i s).ended = .portFailure (i + good.length) p ∧
    deltas s.cfg s.S (good.map fun j => j.sensor) = some (runLoop n i s).engine.S ∧
    ∀ rec, readRecord s.cfg (runLoop n i s).engine.S = some rec →
      (runLoop n i s).engine.trace =
        s.trace ++ loopTrace s.cfg s.S (good.map fun j => j.sensor) ++ eventsBefore rec p := by
  induction good generalizing n i s with
  | nil =>
    obtain ⟨n, rfl⟩ := Nat.exists_eq_succ_of_ne_zero (Nat.ne_zero_of_lt hn)
    obtain ⟨last, hc⟩ := readRecord_of_lt hS
    rw [runLoop_succ_aborted hb ((inputs_cons hins).symm ▸ hbad) hc]
    refine ⟨rfl, rfl, fun rec hr => ?_⟩
    obtain rfl : last = rec := Option.some_inj.1 (hc.symm.trans hr)
    simp [loopTrace]
  | cons j good ih =>
    obtain ⟨n, rfl⟩ := Nat.exists_eq_succ_of_ne_zero (Nat.ne_zero_of_lt hn)
    obtain ⟨rec, hc⟩ := readRecord_of_lt hS
    have hj : inputs s = j := inputs_cons hins
    have hnone : (inputs s).portFault = none := hj ▸ hgood j List.mem_cons_self
    rw [runLoop_succ_completed ((portsWork_iff s).2 (.inr hnone)) hc, List.map_cons, deltas_cons hc,
      loopTrace_cons hc, ← hj, List.length_cons, ← Nat.add_assoc, Nat.add_right_comm, ← List.append_assoc s.trace]
    exact ih (i + 1) (nextOf_current_lt hc _) hb (congrArg List.tail hins)
      (fun k hk => hgood k (List.mem_cons_of_mem j hk)) (Nat.lt_of_succ_lt_succ hn)

/-! ### The order of the scan (R203) -/

theorem firstError_cons (x : Option TableError) (l : List (Option TableError)) :
    firstError (x :: l) = x.or (firstError l) := by
  cases x <;> rfl

theorem firstError_append (l m : List (Option TableError)) :
    firstError (l ++ m) = (firstError l).or (firstError m) := by
  induction l with
  | nil => rfl
  | cons x l ih => rw [List.cons_append, firstError_cons, firstError_cons, ih, Option.or_assoc]

/-- A check over the readings 0 to 3 that finds nothing. -/
theorem firstError_readings_none {check : Nat → Option TableError} (h : ∀ k < 4, check k = none) :
    firstError ((List.range 4).map check) = none := by
  rw [firstError_none]
  simpa using h

/-- A check over the readings 0 to 3 reports its error for the first reading that has one. -/
theorem firstError_readings_some {check : Nat → Option TableError} {k : Nat} {e : TableError} (hk : k < 4)
    (hbefore : ∀ j < k, check j = none) (h : check k = some e) :
    firstError ((List.range 4).map check) = some e := by
  obtain ⟨m, hm⟩ : ∃ m, 4 = k + (m + 1) := ⟨3 - k, by omega⟩
  have hnone : firstError ((List.range k).map check) = none := by
    rw [firstError_none]
    simpa using hbefore
  rw [hm, List.range_add, List.map_append, firstError_append, hnone, List.range_succ_eq_map]
  simp [firstError_cons, h]

/-- The scan of a record: V2a, V2b, V3 north, V3 east, V5, each only where those before it find nothing. -/
theorem recordError_eq_or (n w s : Nat) (r : RawRecord) : recordError n w s r =
    (firstError ((List.range 4).map (missingAt s r))).or
      ((firstError ((List.range 4).map (badTargetAt n s r))).or
        ((conflictOn s r .north).or ((conflictOn s r .east).or (durationError w s r)))) := by
  have hchecks : recordChecks n w s r = (List.range 4).map (missingAt s r) ++ ((List.range 4).map (badTargetAt n s r) ++
      [conflictOn s r .north, conflictOn s r .east, durationError w s r]) := rfl
  rw [recordError, hchecks, firstError_append, firstError_append, firstError_cons, firstError_cons, firstError_cons,
    firstError, Option.or_none]

/-- The first missing entry is reported before anything else of the record. -/
theorem recordError_missing {s k : Nat} {r : RawRecord} (n w : Nat) (hk : k < 4) (hbefore : ∀ j < k, r.next[j]? ≠ none)
    (h : r.next[k]? = none) : recordError n w s r = some (.missingTransition s k) := by
  have hfirst : firstError ((List.range 4).map (missingAt s r)) = some (.missingTransition s k) :=
    firstError_readings_some hk (fun j hj => (missingAt_none ..).2 (Option.ne_none_iff_exists'.1 (hbefore j hj)))
      (by simp [missingAt, h])
  rw [recordError_eq_or, hfirst, Option.some_or]

/-- Where no entry is missing the rest of the scan decides. -/
theorem recordError_of_complete {s : Nat} {r : RawRecord} (n w : Nat) (h : ∀ j < 4, r.next[j]? ≠ none) :
    recordError n w s r = (firstError ((List.range 4).map (badTargetAt n s r))).or
      ((conflictOn s r .north).or ((conflictOn s r .east).or (durationError w s r))) := by
  rw [recordError_eq_or, firstError_readings_none fun j hj =>
    (missingAt_none ..).2 (Option.ne_none_iff_exists'.1 (h j hj)), Option.none_or]

/-- Where no entry is missing the first one out of range is reported. -/
theorem recordError_badTarget {n s k t : Nat} {r : RawRecord} (w : Nat) (hcomplete : ∀ j < 4, r.next[j]? ≠ none)
    (hk : k < 4) (hbefore : ∀ j < k, ∀ u, r.next[j]? = some u → u < n) (h : r.next[k]? = some t) (ht : n ≤ t) :
    recordError n w s r = some (.badTarget s k t) := by
  have hfirst : firstError ((List.range 4).map (badTargetAt n s r)) = some (.badTarget s k t) :=
    firstError_readings_some hk (fun j hj => (badTargetAt_none ..).2 (hbefore j hj)) (by simp [badTargetAt, h, ht])
  rw [recordError_of_complete n w hcomplete, hfirst, Option.some_or]

/-- Where every entry is there and in range the pattern and the duration decide. -/
theorem recordError_of_targets {n s : Nat} {r : RawRecord} (w : Nat) (hcomplete : ∀ j < 4, r.next[j]? ≠ none)
    (h : ∀ j < 4, ∀ u, r.next[j]? = some u → u < n) : recordError n w s r =
      (conflictOn s r .north).or ((conflictOn s r .east).or (durationError w s r)) := by
  rw [recordError_of_complete n w hcomplete, firstError_readings_none fun j hj => (badTargetAt_none ..).2 (h j hj),
    Option.none_or]

theorem conflictOn_some {s : Nat} {r : RawRecord} {road : Road} (h : 1 < litCount r.out road) :
    conflictOn s r road = some (.outputConflict s road) := if_pos h

theorem durationError_some {w s : Nat} {r : RawRecord} (h : 2 ^ w ≤ r.dur) :
    durationError w s r = some (.durationRange s r.dur) := if_pos h

/-- Records that pass their checks leave the error of a table to those after them. -/
theorem recordsError_append {n w s : Nat} {good : List RawRecord} (h : recordsError n w s good = none)
    (later : List RawRecord) : recordsError n w s (good ++ later) = recordsError n w (s + good.length) later := by
  induction good generalizing s with
  | nil => rfl
  | cons q good ih =>
    cases hq : recordError n w s q with
    | some e => simp [recordsError, hq] at h
    | none =>
      simp only [recordsError, hq] at h
      simp only [List.cons_append, recordsError, hq, ih h, List.length_cons, Nat.add_assoc, Nat.add_comm 1]

/-- A table of the right size and start reports what the scan of its records does. -/
theorem validate_eq_recordsError {n w st : Nat} {raw : List RawRecord} (hlen : raw.length = n) (hst : st < n) :
    validate n w st raw = recordsError n w 0 raw := by
  rw [validate, if_neg (by omega), if_neg (by omega)]

end Sys2Proof.Machine

namespace Sys2Proof
open Machine

/-- Settles O18: the row runs its record, and only an injected failure of a hosted build aborts that. -/
theorem recordRowsStopOnlyOnAFailingHostedPort : Obligations.RecordRowsStopOnlyOnAFailingHostedPort := by
  intro i rec s hi
  rw [exec_record hi]
  exact ⟨fun p hb hf => runRecord_aborted hb hf rec, fun h => ⟨_, runRecord_done ((portsWork_iff s).2 h)⟩⟩

/-- Settles O33: the step of a hosted build runs the record at `S`, which the invariant provides; outside a hosted build
no port fails. -/
theorem onlyAFailingHostedPortStopsAStep : Obligations.OnlyAFailingHostedPortStopsAStep := by
  intro s hinv
  by_cases hb : s.build = .hosted
  · obtain ⟨rec, hc⟩ := readRecord_of_lt hinv.cursor
    rw [step_loop (by simp [hb]) hc]
    cases hf : (inputs s).portFault with
    | none =>
      rw [runRecord_done ((portsWork_iff s).2 (.inr hf))]
      exact .inl ⟨_, rfl⟩
    | some p =>
      rw [runRecord_aborted hb hf]
      exact .inr ⟨hb, p, rfl, rfl⟩
  · exact .inl (exists_step_of_runInv hinv hb)

/-- Settles O42: the call numbers its iterations from 0. -/
theorem runNStepsStopsAtTheFailingPort : Obligations.RunNStepsStopsAtTheFailingPort := by
  intro n s good bad rest p hinv hb hins hgood hbad hn
  obtain ⟨hended, hcursor, htrace⟩ := runLoop_stops 0 hinv.cursor hb hins hgood hbad hn
  rw [Nat.zero_add] at hended
  refine ⟨hended, hcursor, fun rec hr => ?_⟩
  cases p <;> exact htrace rec hr

/-- Settles O46: the size and the start come before the records, the records before an error pass, and within a record
each check is reached only where those before it find nothing. -/
theorem validateReportsTheFirstError : Obligations.ValidateReportsTheFirstError := by
  refine ⟨fun n w st raw h => if_pos h, fun n w st raw hn hlen hst => ?_,
    fun n w st good r later e hlen hst hgood hr => ?_, fun n w s r =>
    ⟨fun k hk hbefore h => recordError_missing n w hk hbefore h, fun hcomplete =>
      ⟨fun k hk t hbefore h ht => recordError_badTarget w hcomplete hk hbefore h ht, fun htargets => ?_⟩⟩⟩
  · rw [validate, if_neg (by omega), if_pos hst]
  · have hpass : recordsError n w 0 good = none :=
      (recordsError_none ..).2 fun k q hq => by rw [Nat.zero_add, hgood k q hq]
    rw [validate_eq_recordsError hlen hst, recordsError_append hpass, Nat.zero_add]
    simp only [recordsError, hr]
  · rw [recordError_of_targets w hcomplete htargets]
    refine ⟨fun hnorth => ?_, fun hnorth heast => ?_, fun hnorth heast hdur => ?_⟩
    · rw [conflictOn_some hnorth, Option.some_or]
    · rw [(conflictOn_none ..).2 hnorth, conflictOn_some heast, Option.none_or, Option.some_or]
    · rw [(conflictOn_none ..).2 hnorth, (conflictOn_none ..).2 heast, durationError_some hdur, Option.none_or,
        Option.none_or]

end Sys2Proof
end

section
/-! COUNT at the largest `CNT` of 41_engine_operations.md R139, which no run executes (log 10). -/

namespace Sys2Proof.Machine

/-- At the largest value of `DUR_W` bits the sum is the modulus of the addition: COUNT clears `CNT` and does nothing
else. -/
theorem countUnit_of_largest {s : State} (h : s.CNT + 1 = 2 ^ s.cfg.durW) : countUnit s = { s with CNT := 0 } := by
  rw [countUnit, h, Nat.mod_self]

end Sys2Proof.Machine

namespace Sys2Proof
open Machine

/-- Settles O13: the sum is the modulus of the addition. -/
theorem countAtTheLargestValueWraps : Obligations.CountAtTheLargestValueWraps := fun _ hlargest =>
  congrArg _ (countUnit_of_largest hlargest)

end Sys2Proof
end
